-- ==== Sys2Proof/Word.lean ====
section
/-! DEFINITION. Words, bytes and the two small value types the encodings name (00_scope.md R9, 30_encoding.md R72). -/

namespace Sys2Proof

/-- One framebuffer byte or line-property entry. -/
abbrev Byte := BitVec 8

/-- A 32-bit bus value, command word or host register. -/
abbrev Word := BitVec 32

/-- R9: `s16(v)`, the two's-complement value of a 16-bit field as an integer in [-32768, 32767]. -/
abbrev s16 (v : BitVec 16) : Int := v.toInt

/-- R72: the combine modes; `reserved` is MODE = 0b11. -/
inductive Mode
  | set | or | xor | reserved
  deriving DecidableEq, Repr

end Sys2Proof
end

