-- ==== Sys2Proof/Config.lean ====
section
/-! DEFINITION. The parameters of the engine (00_scope.md R6) and the free values the spec leaves open. -/

namespace Sys2Proof

/-- R12: the five agents. Which one takes the next step is left open. -/
inductive Agent
  | host | seq | tmr | ser | rst
  deriving DecidableEq, Repr, Inhabited

namespace Config

/-- R6: `WIDTH`, pixels per visible line. -/
abbrev width : Nat := 512
/-- R6: `HEIGHT` = `VISIBLE_LINES`. -/
abbrev visibleLines : Nat := 480
/-- R6: `BLANKING_LINES`. -/
abbrev blankingLines : Nat := 45
/-- R6: `TOTAL_LINES` = `LPT_ENTRIES`. -/
abbrev totalLines : Nat := 525
/-- R6: `BWIDTH` = `SER_LINE_BYTES`, bytes per line. -/
abbrev bwidth : Nat := 64
/-- R6: `WWIDTH`, 32-bit words per line. -/
abbrev wwidth : Nat := 16
/-- R6: `FB_BYTES` = `VISIBLE_LINES` × `BWIDTH`. -/
abbrev fbBytes : Nat := 30720
/-- R6, D15: `VSYNC_BEGIN_LINE`, the spec's decision. -/
abbrev vsyncBeginLine : Nat := 490
/-- R6, D15: `VSYNC_END_LINE`, the spec's decision. -/
abbrev vsyncEndLine : Nat := 492

/-- R6: `LINE_PERIOD` is OPEN. The model has no time, so no definition uses it (log 8). -/
opaque linePeriod : Nat
/-- R6: `HSYNC_PULSE` is OPEN. The model has no time, so no definition uses it (log 8). -/
opaque hsyncPulse : Nat
/-- R6, R54: `BLOCK_BASE` is OPEN: where the host maps the 64 KiB window (log 8). -/
opaque blockBase : Nat

/-- R37, 93 U12, D24: the framebuffer's contents at a reset are a draw. The value of byte `index` after reset number
`epoch`, until it is first written: a free value (log 1). -/
opaque fbDraw (epoch index : Nat) : Byte

/-- R12, D42: the interleaving of the agents is open. Whose turn it is once the schedule held in State is used up: a free
value (log 2). -/
opaque freeAgent (turn : Nat) : Agent

end Config

end Sys2Proof
end

