-- ==== Sys2Proof/Syntax.lean ====
section
/-! DEFINITION. The engine's instructions: one constructor per row of spec/opcode_table.json, that is the command words of
30_encoding.md R73 and R74 and the bus transaction classes of R65. A field that the spec does not decode (R75) is no
operand. The operands a command takes from XY and DATA (R71) are state, not part of the instruction. `off` is ADDR[14:0];
ADDR[15] is fixed by the class. -/

namespace Sys2Proof

/-- The instructions of the engine. -/
inductive Instr
  /-- R101. -/
  | nop
  /-- R102. -/
  | start
  /-- R103. -/
  | stop
  /-- R104. -/
  | pause
  /-- R105. -/
  | resume
  /-- R106: MASK = CMD[23:16], LINE16 = CMD[15:0]. -/
  | setprop (mask : Byte) (line : BitVec 16)
  /-- R107: MASK = CMD[23:16], the start line LINE16 = CMD[15:0]; the end line is DATA[15:0]. -/
  | setprops (mask : Byte) (line : BitVec 16)
  /-- R108: LINE16 = CMD[15:0]. -/
  | getprop (line : BitVec 16)
  /-- R113: MODE = CMD[17:16], V = CMD[0]; X and Y are in XY. -/
  | putpix (mode : Mode) (v : BitVec 1)
  /-- R114: MODE = CMD[17:16], D8 = CMD[7:0]; X and Y are in XY. -/
  | putpix8 (mode : Mode) (d8 : Byte)
  /-- R115: MODE = CMD[17:16]; X and Y are in XY, WORD is DATA. -/
  | putpix32 (mode : Mode)
  /-- R116: X and Y are in XY. -/
  | getpix
  /-- R117: X and Y are in XY. -/
  | getpix8
  /-- R118: X and Y are in XY. -/
  | getpix32
  /-- R119: D8 = CMD[7:0]. -/
  | fill (d8 : Byte)
  /-- R74: a command word whose opcode is one of the 241 reserved values. -/
  | reservedOpc (opc : BitVec 8)
  /-- R124. -/
  | fbRd8 (off : BitVec 15)
  /-- R125: the byte is WDATA[7:0]. -/
  | fbWr8 (off : BitVec 15) (d : Byte)
  /-- R126. -/
  | fbRd32 (off : BitVec 15)
  /-- R127. -/
  | fbWr32 (off : BitVec 15) (d : Word)
  /-- R128: WDATA is a command word. -/
  | wrCmd (w : Word)
  /-- R129. -/
  | wrXy (w : Word)
  /-- R130. -/
  | wrData (w : Word)
  /-- R131, offset 0x8000. -/
  | rdCmd
  /-- R131, offset 0x8004. -/
  | rdXy
  /-- R131, offset 0x8008. -/
  | rdData
  /-- R131, offset 0x800C. -/
  | rdResult
  /-- R131, offset 0x8010. -/
  | rdStatus
  /-- R133: an 8-bit access to the register window, read or write. -/
  | regByte (we : Bool) (off : BitVec 15)
  /-- R132: a 32-bit access to the register window that no row above matches, read or write. -/
  | regOther32 (we : Bool) (off : BitVec 15)
  deriving DecidableEq, Repr

end Sys2Proof
end

