-- ==== Sys2Proof/WellFormed.lean ====
section
/-! DEFINITION. Which terms of Instr stand for some word: the two catch-all rows of the opcode table hold only what no
other row matches (30_encoding.md R65, R74). Every other operand has exactly the width its encoding gives it. -/

namespace Sys2Proof

/-- R73: the opcodes that name a command. -/
def definedOpcode (opc : BitVec 8) : Bool :=
  [0x00#8, 0x01#8, 0x02#8, 0x03#8, 0x04#8, 0x10#8, 0x11#8, 0x12#8, 0x20#8, 0x21#8, 0x22#8, 0x24#8, 0x25#8, 0x26#8,
    0x30#8].contains opc

/-- R65: ADDR[14:0] of the 32-bit register writes (`we`) and reads that a row above REG_OTHER32 matches. -/
def namedRegister (we : Bool) (off : BitVec 15) : Bool :=
  if we then [0x0000#15, 0x0004#15, 0x0008#15].contains off
  else [0x0000#15, 0x0004#15, 0x0008#15, 0x000C#15, 0x0010#15].contains off

/-- The instruction is one that some word encodes. -/
def WellFormed : Instr → Bool
  | .reservedOpc opc => !definedOpcode opc
  | .regOther32 we off => !namedRegister we off
  | .nop | .start | .stop | .pause | .resume
  | .setprop _ _ | .setprops _ _ | .getprop _
  | .putpix _ _ | .putpix8 _ _ | .putpix32 _ | .getpix | .getpix8 | .getpix32 | .fill _
  | .fbRd8 _ | .fbWr8 _ _ | .fbRd32 _ | .fbWr32 _ _
  | .wrCmd _ | .wrXy _ | .wrData _ | .rdCmd | .rdXy | .rdData | .rdResult | .rdStatus
  | .regByte _ _ => true

end Sys2Proof
end

