-- ==== Sys2Proof/Decode.lean ====
section
/-! DEFINITION. Decoding at the two levels of 30_encoding.md R63 (bus transaction, command word), total on all words, and
the encoder written from the same tables. -/

namespace Sys2Proof

/-! ## Bus transactions and encodings -/

/-- R64: one bus transaction: the 18-bit word BT = (WE, SZ, ADDR) and its write data. -/
structure Transaction where
  bt : BitVec 18
  wdata : Word
  deriving DecidableEq, Repr

/-- R63: the two levels at which a word is decoded. -/
inductive Encoded
  | command (w : Word)
  | transaction (t : Transaction)
  deriving DecidableEq, Repr

/-! ## Fields -/

/-- R64: WE = BT[17]. -/
def btWe (bt : BitVec 18) : Bool := bt.getLsbD 17
/-- R64: SZ = BT[16], true for a 32-bit access. -/
def btSz (bt : BitVec 18) : Bool := bt.getLsbD 16
/-- R64: ADDR[15], true for the register window. -/
def btReg (bt : BitVec 18) : Bool := bt.getLsbD 15
/-- R64: ADDR[14:0]. -/
def btOff (bt : BitVec 18) : BitVec 15 := bt.extractLsb' 0 15

/-- R64: BT from its fields, ADDR[15] apart. -/
def mkBt (we sz reg : Bool) (off : BitVec 15) : BitVec 18 :=
  BitVec.ofBool we ++ BitVec.ofBool sz ++ BitVec.ofBool reg ++ off

/-- R66: OPC = CMD[31:24]. -/
def cmdOpc (w : Word) : BitVec 8 := w.extractLsb' 24 8
/-- R68: MASK = CMD[23:16]. -/
def cmdMask (w : Word) : Byte := w.extractLsb' 16 8
/-- R68: LINE16 = CMD[15:0]. -/
def cmdLine (w : Word) : BitVec 16 := w.extractLsb' 0 16
/-- R69, R70: D8 = CMD[7:0]. -/
def cmdD8 (w : Word) : Byte := w.extractLsb' 0 8
/-- R69, D46: the pixel value of PUTPIX, D8[0]. -/
def cmdV (w : Word) : BitVec 1 := w.extractLsb' 0 1

/-- R72: the combine mode of a MODE field. -/
def Mode.ofBits (b : BitVec 2) : Mode :=
  if b = 0b00#2 then .set else if b = 0b01#2 then .or else if b = 0b10#2 then .xor else .reserved

/-- R72: the MODE field of a combine mode. -/
def Mode.bits : Mode → BitVec 2
  | .set => 0b00 | .or => 0b01 | .xor => 0b10 | .reserved => 0b11

/-- R69: MODE = CMD[17:16]. -/
def cmdMode (w : Word) : Mode := Mode.ofBits (w.extractLsb' 16 2)

/-! ## Command words -/

/-- R73: the defined commands. -/
inductive Opcode
  | nop | start | stop | pause | resume | setprop | setprops | getprop | putpix | putpix8 | putpix32 | getpix | getpix8
  | getpix32 | fill
  deriving DecidableEq, Repr

/-- R73: the OPC value of each command. -/
def Opcode.code : Opcode → BitVec 8
  | .nop => 0x00 | .start => 0x01 | .stop => 0x02 | .pause => 0x03 | .resume => 0x04
  | .setprop => 0x10 | .setprops => 0x11 | .getprop => 0x12
  | .putpix => 0x20 | .putpix8 => 0x21 | .putpix32 => 0x22
  | .getpix => 0x24 | .getpix8 => 0x25 | .getpix32 => 0x26 | .fill => 0x30

/-- R73: the rows of the opcode map. -/
def Opcode.all : List Opcode :=
  [.nop, .start, .stop, .pause, .resume, .setprop, .setprops, .getprop, .putpix, .putpix8, .putpix32, .getpix, .getpix8,
    .getpix32, .fill]

/-- R73, R74: the command an OPC value selects; none for a reserved opcode. -/
def opcodeOf (opc : BitVec 8) : Option Opcode := Opcode.all.find? (fun o => o.code == opc)

/-- R66, R73, R74: the instruction of a command word. -/
def decodeCommand (w : Word) : Instr :=
  match opcodeOf (cmdOpc w) with
  | some .nop => .nop
  | some .start => .start
  | some .stop => .stop
  | some .pause => .pause
  | some .resume => .resume
  | some .setprop => .setprop (cmdMask w) (cmdLine w)
  | some .setprops => .setprops (cmdMask w) (cmdLine w)
  | some .getprop => .getprop (cmdLine w)
  | some .putpix => .putpix (cmdMode w) (cmdV w)
  | some .putpix8 => .putpix8 (cmdMode w) (cmdD8 w)
  | some .putpix32 => .putpix32 (cmdMode w)
  | some .getpix => .getpix
  | some .getpix8 => .getpix8
  | some .getpix32 => .getpix32
  | some .fill => .fill (cmdD8 w)
  | none => .reservedOpc (cmdOpc w)

/-! ## Bus transactions -/

/-- R65: the class of a bus transaction: the first row that matches, top to bottom. -/
def decodeBus (t : Transaction) : Instr :=
  let we := btWe t.bt
  let sz := btSz t.bt
  let reg := btReg t.bt
  let off := btOff t.bt
  if !we && !sz && !reg then .fbRd8 off
  else if we && !sz && !reg then .fbWr8 off (t.wdata.extractLsb' 0 8)
  else if !we && sz && !reg then .fbRd32 off
  else if we && sz && !reg then .fbWr32 off t.wdata
  else if we && sz && off == 0x0000#15 then .wrCmd t.wdata
  else if we && sz && off == 0x0004#15 then .wrXy t.wdata
  else if we && sz && off == 0x0008#15 then .wrData t.wdata
  else if !we && sz && off == 0x0000#15 then .rdCmd
  else if !we && sz && off == 0x0004#15 then .rdXy
  else if !we && sz && off == 0x0008#15 then .rdData
  else if !we && sz && off == 0x000C#15 then .rdResult
  else if !we && sz && off == 0x0010#15 then .rdStatus
  else if !sz then .regByte we off
  else .regOther32 we off

/-- R63: the decoder. Every word of either level decodes. -/
def decode : Encoded → Instr
  | .command w => decodeCommand w
  | .transaction t => decodeBus t

/-! ## The encoder -/

/-- R67: a format C word. -/
def formatC (o : Opcode) : Word := o.code ++ 0#24
/-- R68: a format L word. -/
def formatL (o : Opcode) (mask : Byte) (line : BitVec 16) : Word := o.code ++ mask ++ line
/-- R69: a format P word. -/
def formatP (o : Opcode) (mode : Mode) (d8 : Byte) : Word := o.code ++ 0#6 ++ mode.bits ++ 0#8 ++ d8
/-- R70: a format F word. -/
def formatF (o : Opcode) (d8 : Byte) : Word := o.code ++ 0#16 ++ d8

/-- R64: a transaction from its fields. -/
def mkTransaction (we sz reg : Bool) (off : BitVec 15) (wdata : Word) : Transaction := ⟨mkBt we sz reg off, wdata⟩

/-- R65 to R75: the words of an instruction. Fields that are not decoded are 0. -/
def encode : Instr → Encoded
  | .nop => .command (formatC .nop)
  | .start => .command (formatC .start)
  | .stop => .command (formatC .stop)
  | .pause => .command (formatC .pause)
  | .resume => .command (formatC .resume)
  | .setprop mask line => .command (formatL .setprop mask line)
  | .setprops mask line => .command (formatL .setprops mask line)
  | .getprop line => .command (formatL .getprop 0 line)
  | .putpix mode v => .command (formatP .putpix mode (0#7 ++ v))
  | .putpix8 mode d8 => .command (formatP .putpix8 mode d8)
  | .putpix32 mode => .command (formatP .putpix32 mode 0)
  | .getpix => .command (formatP .getpix .set 0)
  | .getpix8 => .command (formatP .getpix8 .set 0)
  | .getpix32 => .command (formatP .getpix32 .set 0)
  | .fill d8 => .command (formatF .fill d8)
  | .reservedOpc opc => .command (opc ++ 0#24)
  | .fbRd8 off => .transaction (mkTransaction false false false off 0)
  | .fbWr8 off d => .transaction (mkTransaction true false false off (0#24 ++ d))
  | .fbRd32 off => .transaction (mkTransaction false true false off 0)
  | .fbWr32 off d => .transaction (mkTransaction true true false off d)
  | .wrCmd w => .transaction (mkTransaction true true true 0x0000 w)
  | .wrXy w => .transaction (mkTransaction true true true 0x0004 w)
  | .wrData w => .transaction (mkTransaction true true true 0x0008 w)
  | .rdCmd => .transaction (mkTransaction false true true 0x0000 0)
  | .rdXy => .transaction (mkTransaction false true true 0x0004 0)
  | .rdData => .transaction (mkTransaction false true true 0x0008 0)
  | .rdResult => .transaction (mkTransaction false true true 0x000C 0)
  | .rdStatus => .transaction (mkTransaction false true true 0x0010 0)
  | .regByte we off => .transaction (mkTransaction we false true off 0)
  | .regOther32 we off => .transaction (mkTransaction we true true off 0)

/-! ## The opcode table's numbering -/

/-- How a word of spec/opcode_table.json reaches the engine (log 14): a row of 18 bits, three whole bytes, is a BT word and
its write data is 0; a row of 32 bits is a command word, which a WR_CMD transaction carries. None for a width the table
does not have or a word that does not fit. -/
def tableTransaction (nbits w : Nat) : Option Transaction :=
  if 18 ≤ nbits ∧ nbits ≤ 24 then
    if w < 2 ^ 18 then some ⟨BitVec.ofNat 18 w, 0⟩ else none
  else if nbits = 32 then
    if w < 2 ^ 32 then some ⟨0x38000#18, BitVec.ofNat 32 w⟩ else none
  else none

/-- The instruction the decoder reads from a word numbered as spec/opcode_table.json numbers it: at the level of its row. -/
def decodeTableWord (nbits w : Nat) : Option Instr :=
  match tableTransaction nbits w with
  | none => none
  | some t => some (if nbits = 32 then decode (.command t.wdata) else decode (.transaction t))

end Sys2Proof
end

