-- ==== Sys2Proof/Machine/State.lean ====
section
/-! DEFINITION. The engine's state (10_state.md), its state after reset (70_reset_and_hazards.md R150), and the reasons a
step can stop. -/

namespace Sys2Proof.Machine

/-- R28: the line buffer the next transfer sends. -/
inductive BufSel
  | row (r : Fin 480)
  | blank
  deriving DecidableEq, Repr

/-- R29: the VSYNC action selected for the next tick. -/
inductive VTarget
  /-- END: phase 1 drives VSYNC_N to 1. -/
  | vend
  /-- BEGIN: phase 1 drives VSYNC_N to 0. -/
  | vbegin
  deriving DecidableEq, Repr

/-- R30: the sequencer's position inside a tick. -/
inductive Phase
  | idle | waitSer
  deriving DecidableEq, Repr

/-- R43: the steps that remain of the host operation in flight. -/
inductive Hop
  | none
  /-- The byte steps left of a PUTPIX32 or of an FB_WR32 (whose mode is SET): the next byte index and the bytes to combine. -/
  | bytes (mode : Mode) (next : Nat) (rest : List Byte)
  /-- The byte steps left of a FILL: the next byte index. -/
  | fill (next : Nat) (d8 : Byte)
  /-- The entry steps left of a SETPROPS: the next line and the first line past the range. -/
  | props (next stop : Nat) (mask : Byte)
  deriving DecidableEq, Repr

/-- R40: the events of the output trace. An output level is `true` for 1. -/
inductive Event
  | hs (v : Bool)
  | col (c : BitVec 2)
  | vs (v : Bool)
  | prep (line : BitVec 10) (bytes : List Byte)
  | xmit
  | ka
  deriving DecidableEq, Repr

/-- R39: the constant blank row. -/
def blankRow : List Byte := List.replicate 64 0x00#8

/-- The state. One-bit registers and outputs are `true` for 1. Every field but the last four is the spec's. -/
structure State where
  /-- R21. -/
  xy : Word
  /-- R22. -/
  data : Word
  /-- R23. -/
  result : Word
  /-- R25. -/
  enabled : Bool
  /-- R26. -/
  running : Bool
  /-- R27. -/
  line : BitVec 10
  /-- R28. -/
  bufsel : BufSel
  /-- R29. -/
  vtarget : VTarget
  /-- R30. -/
  phase : Phase
  /-- R31. -/
  tickPending : Bool
  /-- R33. -/
  hsyncN : Bool
  /-- R34. -/
  vsyncN : Bool
  /-- R35. -/
  color : BitVec 2
  /-- R37: the framebuffer bytes written since the last reset, by index; every other byte is a free value (log 1). -/
  fb : List Host.Cell
  /-- R38: the line-property entries that are not 0x00, by line. -/
  lpt : List Host.Cell
  /-- R41. -/
  serBusy : Bool
  /-- R94, R96, 93 U1: the external serializer is shifting a line out. A serializer that keeps R96 has this equal to SER_BUSY
  (log 10). -/
  serLive : Bool
  /-- R62, R96: the external serializer's copy of the line it was last handed (log 11). -/
  serBuf : List Byte
  /-- R43. -/
  hop : Hop
  /-- R40: the output trace, oldest event first. -/
  trace : List Event
  /-- R64: RDATA, the value the latest read transaction returned (log 6). -/
  rdata : Word
  /-- R6, R42: the build parameter LINE_PROPS_ENABLED, hard-wired, seen as STATUS[4] (log 7). -/
  lpe : Bool
  /-- R50: the transactions HOST has still to issue, in program order: an input (log 4). -/
  bus : List Transaction
  /-- R12: whose turn comes next, first to last: an input (log 2). -/
  sched : List Agent
  /-- How many turns were chosen freely; it selects the free value `Config.freeAgent` (log 2). -/
  turn : Nat
  /-- How many resets there were; it selects the free values `Config.fbDraw` (log 1). -/
  fbEpoch : Nat
  deriving DecidableEq, Repr

/-- What stops the machine. -/
inductive Fault
  /-- 93 U1, R154: phase 2 was about to hand a line to a serializer that is still shifting one out although SER_BUSY is 0:
  the source's "undefined behavior". Raised by the sequencer's phase 2 alone. Safe: the machine stops where the spec says
  to flag a fault, and a serializer that keeps R96 never brings it there. -/
  | prepIntoLiveTransfer
  deriving DecidableEq, Repr

/-- What has no meaning in the model. -/
inductive Refusal
  /-- An instruction without a meaning yet; only `exec` could raise it, and it does for none. Safe. -/
  | notModelled (mnemonic : String)
  deriving DecidableEq, Repr

/-- The outcome of a meaning, a move or a step. -/
abbrev Result := Host.Outcome State Fault Refusal

/-- R149, R150: the machine right after reset, in the build with LINE_PROPS_ENABLED = true (log 7), with nothing for the
host to do yet. -/
def State.reset : State where
  xy := 0x00000000#32
  data := 0x00000000#32
  result := 0x00000000#32
  enabled := false
  running := true
  line := 0#10
  bufsel := .row 0
  vtarget := .vend
  phase := .idle
  tickPending := false
  hsyncN := true
  vsyncN := true
  color := 0b00#2
  fb := []
  lpt := []
  serBusy := false
  serLive := false
  serBuf := blankRow
  hop := .none
  trace := []
  rdata := 0x00000000#32
  lpe := true
  bus := []
  sched := []
  turn := 0
  fbEpoch := 0

end Sys2Proof.Machine
end

