-- ==== Sys2Proof/Machine/Operands.lean ====
section
/-! DEFINITION. Operand assembly (30_encoding.md R71), pixel addressing (43_pixel.md R111) and the combine function
(R112). Values only: nothing here changes the state. -/

namespace Sys2Proof.Machine

/-- R71: X, the signed column operand. -/
def opX (s : State) : Int := s16 (s.xy.extractLsb' 0 16)
/-- R71: Y, the signed row operand. -/
def opY (s : State) : Int := s16 (s.xy.extractLsb' 16 16)
/-- R71: ENDL, the signed exclusive end line of SETPROPS. -/
def opEndl (s : State) : Int := s16 (s.data.extractLsb' 0 16)

/-- R111: the first byte index of unit (x, y) in rows of `cols` units of `bytes` bytes; none out of range. -/
def unitIndex (cols bytes : Nat) (x y : Int) : Option Nat :=
  if 0 ≤ x ∧ x < cols ∧ 0 ≤ y ∧ y < Config.visibleLines then some (Config.bwidth * y.toNat + bytes * x.toNat) else none

/-- R111, bit granularity: the byte index and the bit of pixel (x, y); none out of range. -/
def pixelIndex (x y : Int) : Option (Nat × Nat) :=
  if 0 ≤ x ∧ x < Config.width ∧ 0 ≤ y ∧ y < Config.visibleLines then
    some (Config.bwidth * y.toNat + x.toNat / 8, 7 - x.toNat % 8)
  else none

/-- R111, byte granularity. -/
def byteIndex (x y : Int) : Option Nat := unitIndex Config.bwidth 1 x y
/-- R111, word granularity. -/
def wordIndex (x y : Int) : Option Nat := unitIndex Config.wwidth 4 x y

/-- R112: the new value of a byte `o` where lane mask `k` picks the bits to update from `n`. MODE 0b11 updates nothing
(R76). -/
def comb (mode : Mode) (o n k : Byte) : Byte :=
  match mode with
  | .set => (o &&& ~~~k) ||| (n &&& k)
  | .or => o ||| (n &&& k)
  | .xor => o ^^^ (n &&& k)
  | .reserved => o

/-- R115: the bytes of a pixel word in the order PUTPIX32 stores them, most significant first. -/
def bytesBE (w : Word) : List Byte := [w.extractLsb' 24 8, w.extractLsb' 16 8, w.extractLsb' 8 8, w.extractLsb' 0 8]

/-- R47, R127: the bytes of a raw word in the order FB_WR32 stores them, least significant first. -/
def bytesLE (w : Word) : List Byte := [w.extractLsb' 0 8, w.extractLsb' 8 8, w.extractLsb' 16 8, w.extractLsb' 24 8]

/-- R46: the big-endian word of four bytes. -/
def word32 (b0 b1 b2 b3 : Byte) : Word := b0 ++ b1 ++ b2 ++ b3

/-- R49, R126, R127: a raw 32-bit access at `off` is aligned and wholly inside the framebuffer. -/
def rawWordOk (off : BitVec 15) : Bool := off.toNat % 4 == 0 && off.toNat + 3 < Config.fbBytes

/-- R106, R108: line `l` is a visible line of a build with line properties; its table index. -/
def propIndex (s : State) (l : BitVec 16) : Option Nat :=
  if s.lpe = true ∧ 0 ≤ s16 l ∧ s16 l < Config.visibleLines then some (s16 l).toNat else none

/-- R107: the first line of a clamped range, max(0, S). -/
def clampLo (start : Int) : Nat := start.toNat
/-- R107: the line after a clamped range, min(E, VISIBLE_LINES), 0 if that is negative. -/
def clampHi (stop : Int) : Nat := min stop.toNat Config.visibleLines

end Sys2Proof.Machine
end

