-- ==== Sys2Proof/Machine/Ops.lean ====
section
/-! DEFINITION. The named operations over memory, registers and the host operation in flight, which every meaning is built
from. The engine raises no exception (60_exceptions.md R134); its trap analogue, the tick (R138, R139), is in
Machine/Sequencer.lean. -/

namespace Sys2Proof.Machine

/-! ## Sparse byte tables -/

namespace Memory

/-- The byte listed at `a`. -/
def lookup : List Host.Cell → Nat → Option Byte
  | [], _ => none
  | (k, x) :: rest, a => if a = k then some x else lookup rest a

/-- List `v` at `a`, in place of what was listed there. -/
def insert : List Host.Cell → Nat → Byte → List Host.Cell
  | [], a, v => [(a, v)]
  | (k, x) :: rest, a, v =>
    if a < k then (a, v) :: (k, x) :: rest
    else if a = k then (a, v) :: rest
    else (k, x) :: insert rest a v

/-- Take `a` off the list. -/
def erase (m : List Host.Cell) (a : Nat) : List Host.Cell := m.filter (fun c => c.1 != a)

/-- Addresses strictly rising and below `bound`. -/
abbrev sorted (bound : Nat) (m : List Host.Cell) : Prop :=
  m.Pairwise (fun c d => c.1 < d.1) ∧ ∀ c ∈ m, c.1 < bound

/-- The canonical form of the framebuffer. An unlisted byte has not been written since the reset, which no listed byte says,
so a list in this form is the only one for its framebuffer (log 1). -/
abbrev wf (m : List Host.Cell) : Prop := sorted Config.fbBytes m

/-- The canonical form of the line-properties table, whose unlisted entries read 0x00. R110: no entry of a blanking line is
ever listed. -/
abbrev lptWf (m : List Host.Cell) : Prop := sorted Config.visibleLines m ∧ ∀ c ∈ m, c.2 ≠ 0x00#8

end Memory

/-- R10: `FbRead(a)`. R37, R116: a byte never written since reset reads as its draw. -/
def fbRead (s : State) (a : Nat) : Byte := (Memory.lookup s.fb a).getD (Config.fbDraw s.fbEpoch a)

/-- R10: `FbWrite(a, v)`. -/
def fbWrite (a : Nat) (v : Byte) (s : State) : State := { s with fb := Memory.insert s.fb a v }

/-- R38: `LPT[l]`. -/
def lptRead (s : State) (l : Nat) : Byte := (Memory.lookup s.lpt l).getD 0x00#8

/-- R106: `LPT[l] <- v`. -/
def lptWrite (l : Nat) (v : Byte) (s : State) : State :=
  { s with lpt := if v = 0x00#8 then Memory.erase s.lpt l else Memory.insert s.lpt l v }

/-! ## Registers and ports -/

/-- R10: `emit e`. -/
def emit (e : Event) (s : State) : State := { s with trace := s.trace ++ [e] }

/-- R64, R123: a read transaction returns `v` and changes nothing else. -/
def respond (v : Word) (s : State) : State := { s with rdata := v }

/-- R23: a GET command overwrites RESULT. -/
def setResult (v : Word) (s : State) : State := { s with result := v }

/-- R43: HOP. -/
def setHop (h : Hop) (s : State) : State := { s with hop := h }

/-- R46: W(y, w), the big-endian word of the four bytes from index `a`. -/
def wordBE (s : State) (a : Nat) : Word := word32 (fbRead s a) (fbRead s (a + 1)) (fbRead s (a + 2)) (fbRead s (a + 3))

/-- R47: the four bytes from index `a` in the bus's little-endian lanes. -/
def wordLE (s : State) (a : Nat) : Word := word32 (fbRead s (a + 3)) (fbRead s (a + 2)) (fbRead s (a + 1)) (fbRead s a)

/-- R87: the 64 bytes of the selected line buffer, in increasing index. -/
def rowBytes (s : State) : List Byte :=
  match s.bufsel with
  | .row r => (List.range Config.bwidth).map (fun i => fbRead s (Config.bwidth * r.val + i))
  | .blank => blankRow

/-! ## The host operation in flight -/

/-- R43: a host operation is in flight. -/
def Hop.pending : Hop → Bool
  | .none => false
  | .bytes _ _ _ | .fill _ _ | .props _ _ _ => true

/-- R50: how many steps an operation has left. -/
def Hop.remaining : Hop → Nat
  | .none => 0
  | .bytes _ _ rest => rest.length
  | .fill next _ => Config.fbBytes - next
  | .props next stop _ => stop - next

/-- R51 item 3: one byte of a write in mode `mode`: the read-modify-write of one byte (R112). A SET of all eight lanes does
not look at the old byte, so that it runs on a byte that was never written. -/
def combineByte (mode : Mode) (a : Nat) (n k : Byte) (s : State) : State :=
  fbWrite a (if mode = .set ∧ k = 0xFF#8 then n else comb mode (fbRead s a) n k) s

/-- R51, R52: one byte step or entry step of the operation in flight. -/
def hopStep (s : State) : State :=
  match s.hop with
  | .none => s
  | .bytes _ _ [] => setHop .none s
  | .bytes mode a (b :: rest) =>
    setHop (if rest.isEmpty then .none else .bytes mode (a + 1) rest) (combineByte mode a b 0xFF#8 s)
  | .fill a d8 => setHop (if a + 1 < Config.fbBytes then .fill (a + 1) d8 else .none) (fbWrite a d8 s)
  | .props l stop mask => setHop (if l + 1 < stop then .props (l + 1) stop mask else .none) (lptWrite l mask s)

/-- R50, R71: an operation of several steps starts: its operands are copied and its first step is taken (log 5). -/
def beginHop (h : Hop) (s : State) : State := hopStep (setHop h s)

/-- `k` steps of the operation in flight, with no other agent's step between them. -/
def hopRun : Nat → State → State
  | 0, s => s
  | k + 1, s => hopRun k (hopStep s)

/-- R50: the operation in flight run to its completion, with no other agent's step in between. -/
def finishHop (s : State) : State := hopRun s.hop.remaining s

/-! ## Reset -/

/-- R149, R150: the reset input's step. FB is a new draw. LINE_PROPS_ENABLED is hard-wired. What lies outside the engine stays:
what HOST has still to issue and has been answered, the schedule, the events already emitted (log 13). -/
def resetMachine (s : State) : State :=
  { State.reset with
    lpe := s.lpe, fbEpoch := s.fbEpoch + 1, trace := s.trace, rdata := s.rdata, bus := s.bus, sched := s.sched,
    turn := s.turn }

end Sys2Proof.Machine
end

