-- ==== Sys2Proof/Machine/Control.lean ====
section
/-! DEFINITION. Control commands (41_control.md) and the reserved opcodes (30_encoding.md R74). -/

namespace Sys2Proof.Machine

/-- R28, R89: the buffer of a line. -/
def bufselOf (line : Nat) : BufSel := if h : line < 480 then .row ⟨line, h⟩ else .blank

/-- R101: NOP has no effect. -/
def execNop (s : State) : Result := .next s

/-- R102: START arms the timer and re-initialises the cursor to line 0. -/
def execStart (s : State) : Result :=
  .next { s with enabled := true, line := 0#10, bufsel := .row 0, vtarget := .vend, tickPending := false }

/-- R103: STOP disarms the timer. -/
def execStop (s : State) : Result := .next { s with enabled := false, tickPending := false }

/-- R104: PAUSE. -/
def execPause (s : State) : Result := .next { s with running := false }

/-- R105: RESUME. -/
def execResume (s : State) : Result := .next { s with running := true }

/-- R74: a reserved opcode is consumed and has no effect (log 12). -/
def execReservedOpc (_opc : BitVec 8) (s : State) : Result := .next s

end Sys2Proof.Machine
end

