-- ==== Sys2Proof/Machine/Flags.lean ====
section
/-! DEFINITION. The engine has no condition codes; what it shows of its state is STATUS (10_state.md R42). -/

namespace Sys2Proof.Machine

/-- R29: the encoding of VTARGET: END is 0, BEGIN is 1. -/
def VTarget.bit : VTarget → Bool
  | .vend => false
  | .vbegin => true

/-- R42: STATUS, from bit 31 down to bit 0. -/
def status (s : State) : Word :=
  0#6 ++ s.line ++ 0#6 ++ s.color ++ 0#1 ++ BitVec.ofBool s.vsyncN ++ BitVec.ofBool s.hsyncN ++ BitVec.ofBool s.lpe ++
    BitVec.ofBool s.serBusy ++ BitVec.ofBool s.vtarget.bit ++ BitVec.ofBool s.running ++ BitVec.ofBool s.enabled

end Sys2Proof.Machine
end

