-- ==== Sys2Proof/Machine/LineProps.lean ====
section
/-! DEFINITION. Line-properties commands (42_lineprops.md). -/

namespace Sys2Proof.Machine

/-- R106, R109: SETPROP. -/
def execSetprop (mask : Byte) (line : BitVec 16) (s : State) : Result :=
  match propIndex s line with
  | some l => .next (lptWrite l mask s)
  | none => .next s

/-- R107, R109: SETPROPS, one entry step per line of the clamped range, the first of them now (log 5). -/
def execSetprops (mask : Byte) (line : BitVec 16) (s : State) : Result :=
  let lo := clampLo (s16 line)
  let hi := clampHi (opEndl s)
  if s.lpe = true ∧ lo < hi then .next (beginHop (.props lo hi mask) s) else .next s

/-- R108, R109: GETPROP. -/
def execGetprop (line : BitVec 16) (s : State) : Result :=
  match propIndex s line with
  | some l => .next (setResult ((lptRead s l).setWidth 32) s)
  | none => .next (setResult 0x00000000#32 s)

end Sys2Proof.Machine
end

