-- ==== Sys2Proof/Machine/Pixel.lean ====
section
/-! DEFINITION. Pixel access commands (43_pixel.md). -/

namespace Sys2Proof.Machine

/-- R113: PUTPIX, one byte step. MODE = 0b11 has no effect (R76, log 12). -/
def execPutpix (mode : Mode) (v : BitVec 1) (s : State) : Result :=
  if mode = .reserved then .next s
  else match pixelIndex (opX s) (opY s) with
    | some (a, b) => .next (combineByte mode a (v.setWidth 8 <<< b) (0x01#8 <<< b) s)
    | none => .next s

/-- R114: PUTPIX8, one byte step. MODE = 0b11 has no effect (R76, log 12). -/
def execPutpix8 (mode : Mode) (d8 : Byte) (s : State) : Result :=
  if mode = .reserved then .next s
  else match byteIndex (opX s) (opY s) with
    | some a => .next (combineByte mode a d8 0xFF#8 s)
    | none => .next s

/-- R115: PUTPIX32, four byte steps, the first of them now (log 5). MODE = 0b11 has no effect (R76, log 12). -/
def execPutpix32 (mode : Mode) (s : State) : Result :=
  if mode = .reserved then .next s
  else match wordIndex (opX s) (opY s) with
    | some a => .next (beginHop (.bytes mode a (bytesBE s.data)) s)
    | none => .next s

/-- R116: GETPIX. -/
def execGetpix (s : State) : Result :=
  match pixelIndex (opX s) (opY s) with
  | some (a, b) => .next (setResult (((fbRead s a >>> b) &&& 0x01#8).setWidth 32) s)
  | none => .next (setResult 0x00000000#32 s)

/-- R117: GETPIX8. -/
def execGetpix8 (s : State) : Result :=
  match byteIndex (opX s) (opY s) with
  | some a => .next (setResult ((fbRead s a).setWidth 32) s)
  | none => .next (setResult 0x00000000#32 s)

/-- R118: GETPIX32. -/
def execGetpix32 (s : State) : Result :=
  match wordIndex (opX s) (opY s) with
  | some a => .next (setResult (wordBE s a) s)
  | none => .next (setResult 0x00000000#32 s)

/-- R119: FILL, 30720 byte steps, the first of them now (log 5). -/
def execFill (d8 : Byte) (s : State) : Result := .next (beginHop (.fill 0 d8) s)

end Sys2Proof.Machine
end

