-- ==== Sys2Proof/Machine/Bus.lean ====
section
/-! DEFINITION. Host bus transactions (44_bus.md): what a transaction does when HOST applies it. -/

namespace Sys2Proof.Machine

/-- R124: FB_RD8. The aperture tail reads 0 (log 12). -/
def execFbRd8 (off : BitVec 15) (s : State) : Result :=
  .next (respond (if off.toNat < Config.fbBytes then (fbRead s off.toNat).setWidth 32 else 0x00000000#32) s)

/-- R125: FB_WR8, one byte step. The aperture tail ignores writes (log 12). -/
def execFbWr8 (off : BitVec 15) (d : Byte) (s : State) : Result :=
  if off.toNat < Config.fbBytes then .next (fbWrite off.toNat d s) else .next s

/-- R126: FB_RD32. A misaligned or unbacked read returns 0 (log 12). -/
def execFbRd32 (off : BitVec 15) (s : State) : Result :=
  .next (respond (if rawWordOk off then wordLE s off.toNat else 0x00000000#32) s)

/-- R127: FB_WR32, four byte steps, the first of them now (log 5). A misaligned or unbacked write has no effect (log 12). -/
def execFbWr32 (off : BitVec 15) (d : Word) (s : State) : Result :=
  if rawWordOk off then .next (beginHop (.bytes .set off.toNat (bytesLE d)) s) else .next s

/-- R100, R128: WR_CMD executes the command word. -/
def execWrCmd (w : Word) (s : State) : Result :=
  match opcodeOf (cmdOpc w) with
  | some .nop => execNop s
  | some .start => execStart s
  | some .stop => execStop s
  | some .pause => execPause s
  | some .resume => execResume s
  | some .setprop => execSetprop (cmdMask w) (cmdLine w) s
  | some .setprops => execSetprops (cmdMask w) (cmdLine w) s
  | some .getprop => execGetprop (cmdLine w) s
  | some .putpix => execPutpix (cmdMode w) (cmdV w) s
  | some .putpix8 => execPutpix8 (cmdMode w) (cmdD8 w) s
  | some .putpix32 => execPutpix32 (cmdMode w) s
  | some .getpix => execGetpix s
  | some .getpix8 => execGetpix8 s
  | some .getpix32 => execGetpix32 s
  | some .fill => execFill (cmdD8 w) s
  | none => execReservedOpc (cmdOpc w) s

/-- R129: WR_XY. -/
def execWrXy (w : Word) (s : State) : Result := .next { s with xy := w }

/-- R130: WR_DATA. -/
def execWrData (w : Word) (s : State) : Result := .next { s with data := w }

/-- R131: CMD is write-only and reads 0. -/
def execRdCmd (s : State) : Result := .next (respond 0x00000000#32 s)

/-- R131. -/
def execRdXy (s : State) : Result := .next (respond s.xy s)

/-- R131. -/
def execRdData (s : State) : Result := .next (respond s.data s)

/-- R131. -/
def execRdResult (s : State) : Result := .next (respond s.result s)

/-- R131, R42. -/
def execRdStatus (s : State) : Result := .next (respond (status s) s)

/-- R132, R133: an access to the register window that no register answers: a write has no effect, a read returns 0. -/
def noRegister (we : Bool) (s : State) : State := if we then s else respond 0x00000000#32 s

/-- R133: REG_BYTE (log 12). -/
def execRegByte (we : Bool) (_off : BitVec 15) (s : State) : Result := .next (noRegister we s)

/-- R132: REG_OTHER32 (log 12). -/
def execRegOther32 (we : Bool) (_off : BitVec 15) (s : State) : Result := .next (noRegister we s)

end Sys2Proof.Machine
end

