-- ==== Sys2Proof/Machine/Dispatch.lean ====
section
/-! DEFINITION. One arm per instruction. -/

namespace Sys2Proof.Machine

def exec (i : Instr) (s : State) : Host.Outcome State Fault Refusal :=
  match i with
  | .nop => Sys2Proof.Machine.execNop s
  | .start => Sys2Proof.Machine.execStart s
  | .stop => Sys2Proof.Machine.execStop s
  | .pause => Sys2Proof.Machine.execPause s
  | .resume => Sys2Proof.Machine.execResume s
  | .setprop mask line => Sys2Proof.Machine.execSetprop mask line s
  | .setprops mask line => Sys2Proof.Machine.execSetprops mask line s
  | .getprop line => Sys2Proof.Machine.execGetprop line s
  | .putpix mode v => Sys2Proof.Machine.execPutpix mode v s
  | .putpix8 mode d8 => Sys2Proof.Machine.execPutpix8 mode d8 s
  | .putpix32 mode => Sys2Proof.Machine.execPutpix32 mode s
  | .getpix => Sys2Proof.Machine.execGetpix s
  | .getpix8 => Sys2Proof.Machine.execGetpix8 s
  | .getpix32 => Sys2Proof.Machine.execGetpix32 s
  | .fill d8 => Sys2Proof.Machine.execFill d8 s
  | .reservedOpc opc => Sys2Proof.Machine.execReservedOpc opc s
  | .fbRd8 off => Sys2Proof.Machine.execFbRd8 off s
  | .fbWr8 off d => Sys2Proof.Machine.execFbWr8 off d s
  | .fbRd32 off => Sys2Proof.Machine.execFbRd32 off s
  | .fbWr32 off d => Sys2Proof.Machine.execFbWr32 off d s
  | .wrCmd w => Sys2Proof.Machine.execWrCmd w s
  | .wrXy w => Sys2Proof.Machine.execWrXy w s
  | .wrData w => Sys2Proof.Machine.execWrData w s
  | .rdCmd => Sys2Proof.Machine.execRdCmd s
  | .rdXy => Sys2Proof.Machine.execRdXy s
  | .rdData => Sys2Proof.Machine.execRdData s
  | .rdResult => Sys2Proof.Machine.execRdResult s
  | .rdStatus => Sys2Proof.Machine.execRdStatus s
  | .regByte we off => Sys2Proof.Machine.execRegByte we off s
  | .regOther32 we off => Sys2Proof.Machine.execRegOther32 we off s

end Sys2Proof.Machine
end

