-- ==== Sys2Proof/Machine/Sequencer.lean ====
section
/-! DEFINITION. The scanline sequencer, the line timer, the serializer's completion and the reset input (40_sequencer.md,
70_reset_and_hazards.md R149), step by step as the spec's nine steps. -/

namespace Sys2Proof.Machine

/-! ## Phase 1 (R83) -/

/-- R83 steps 1 and 4: HSYNC_N <- v. -/
def driveHsync (v : Bool) (s : State) : State := emit (.hs v) { s with hsyncN := v }

/-- R84: the current line's property byte. -/
def currentProps (s : State) : Byte := if s.line.toNat < Config.totalLines then lptRead s s.line.toNat else 0x00#8

/-- R83 step 2, R84: line-property application. -/
def applyLineProps (s : State) : State :=
  if s.lpe then
    let c := (currentProps s).extractLsb' 0 2
    emit (.col c) { s with color := c }
  else s

/-- R85: the level VTARGET selects: BEGIN drives 0. -/
def VTarget.level : VTarget → Bool
  | .vend => true
  | .vbegin => false

/-- R83 step 5, R85: VSYNC_N from VTARGET, every tick. -/
def applyVsync (s : State) : State := emit (.vs s.vtarget.level) { s with vsyncN := s.vtarget.level }

/-- R83: phase 1, one indivisible step. Step 3, the dead time, changes no state (R164). -/
def phase1 (s : State) : State :=
  let s := driveHsync false { s with tickPending := false }
  let s := driveHsync true (applyLineProps s)
  { applyVsync s with phase := .waitSer }

/-! ## Phase 2 (R86) -/

/-- R86 step 6, R87, R96: the selected row is handed over and shifting begins. -/
def transferLine (s : State) : State :=
  let bytes := rowBytes s
  emit .xmit (emit (.prep s.line bytes) { s with serBusy := true, serLive := true, serBuf := bytes })

/-- R86 steps 7 and 8, R88, R89: the cursor advances and schedules VSYNC for the new line; the new line's buffer is selected. -/
def advanceCursor (s : State) : State :=
  let l := (s.line.toNat + 1) % Config.totalLines
  let v := if l = Config.vsyncBeginLine then .vbegin else s.vtarget
  let v := if l = Config.vsyncEndLine then .vend else v
  { s with line := BitVec.ofNat 10 l, vtarget := v, bufsel := bufselOf l }

/-- R86: phase 2, one indivisible step. -/
def phase2 (s : State) : State :=
  let s := if s.running then transferLine s else s
  { emit .ka (advanceCursor s) with phase := .idle }

/-! ## The agents' moves. An agent without an enabled step holds. -/

/-- R83, R86: SEQ's move. Phase 2 waits while RUNNING = 1 and SER_BUSY = 1; a transfer into a serializer that is still
shifting is 93 U1's fault (log 10). -/
def seqMove (s : State) : Result :=
  match s.phase with
  | .idle => if s.enabled && s.tickPending then .next (phase1 s) else .next s
  | .waitSer =>
    if s.running && s.serBusy then .next s
    else if s.running && s.serLive then .fault .prepIntoLiveTransfer
    else .next (phase2 s)

/-- R82: TMR's move: a request raised while one is pending is lost. -/
def tmrMove (s : State) : State := if s.enabled then { s with tickPending := true } else s

/-- R95: SER's move. -/
def serMove (s : State) : State := if s.serBusy then { s with serBusy := false, serLive := false } else s

end Sys2Proof.Machine
end

