-- ==== Sys2Proof/Machine/Agents.lean ====
section
/-! DEFINITION. Host arbitration (20_memory.md R50, R51), the agents' turns (00_scope.md R12) and how a word is given to
HOST to issue next. -/

namespace Sys2Proof.Machine

/-- R50, R51, R123: HOST's move. While a tick is in progress HOST holds; while an operation is in flight HOST takes its next
step; else HOST issues its next transaction, if it has one (log 4). -/
def hostMove (s : State) : Result :=
  match s.phase with
  | .waitSer => .next s
  | .idle =>
    if s.hop.pending then .next (hopStep s)
    else match s.bus with
      | [] => .next s
      | t :: rest => exec (decodeBus t) { s with bus := rest }

/-- R12: one indivisible step of one agent. -/
def agentMove (a : Agent) (s : State) : Result :=
  match a with
  | .host => hostMove s
  | .seq => seqMove s
  | .tmr => .next (tmrMove s)
  | .ser => .next (serMove s)
  | .rst => .next (resetMachine s)

/-- R12: whose turn it is: the schedule's next, else a free choice (log 2). -/
def nextAgent (s : State) : Agent :=
  match s.sched with
  | a :: _ => a
  | [] => Config.freeAgent s.turn

/-- The turn is taken off the schedule, or off the free choices. -/
def takeTurn (s : State) : State :=
  match s.sched with
  | _ :: rest => { s with sched := rest }
  | [] => { s with turn := s.turn + 1 }

/-- One turn of the machine. -/
def turnStep (s : State) : Result := agentMove (nextAgent s) (takeTurn s)

/-- HOST, between ticks and with no operation in flight, issues `t` in the next turn. -/
def issueNext (t : Transaction) (s : State) : State :=
  { s with bus := t :: s.bus, sched := .host :: s.sched, phase := .idle, hop := .none }

end Sys2Proof.Machine
end

