-- ==== Sys2Proof/Machine/Step.lean ====
section
/-! DEFINITION. The step: one agent's turn. The engine fetches no instructions (20_memory.md R61); what it runs is the
transactions HOST issues. -/

namespace Sys2Proof.Machine

/-- One step of the machine: the next agent in turn takes one indivisible step, or holds. -/
def step (s : State) : Host.Outcome State Fault Refusal := turnStep s

/-- `s` with the transaction that carries the opcode table's word `w` issued by HOST in the next turn (log 14). A width the
table does not have, or a word that does not fit, leaves `s` as it is. -/
def State.withFetchWord (s : State) (nbits w : Nat) : State :=
  match tableTransaction nbits w with
  | some t => issueNext t s
  | none => s

end Sys2Proof.Machine
end

