-- ==== Sys2Proof/Machine/Program.lean ====
section
/-! DEFINITION. The host assembly of 30_encoding.md: the four transaction lines (R78), the pseudo-instructions (R79) as the
transactions they stand for, the environment lines (R80) as agents' turns, and where the window lies (R54). -/

namespace Sys2Proof.Machine

namespace Asm

/-- R78: `RD8 off`. -/
def rd8 (off : BitVec 16) : Transaction := ⟨0b00#2 ++ off, 0⟩
/-- R78: `WR8 off, imm8`. -/
def wr8 (off : BitVec 16) (imm : Byte) : Transaction := ⟨0b10#2 ++ off, imm.setWidth 32⟩
/-- R78: `RD32 off`. -/
def rd32 (off : BitVec 16) : Transaction := ⟨0b01#2 ++ off, 0⟩
/-- R78: `WR32 off, imm32`. -/
def wr32 (off : BitVec 16) (imm : Word) : Transaction := ⟨0b11#2 ++ off, imm⟩

/-- R79: `h16(v)`. -/
def h16 (v : Int) : BitVec 16 := BitVec.ofInt 16 v
/-- R79: `CMD w`. -/
def cmd (w : Word) : Transaction := wr32 0x8000 w
/-- R79: `SETXY y, x`. -/
def setxy (y x : Int) : Transaction := wr32 0x8004 (h16 y ++ h16 x)
/-- R79: `SETDATA v`. -/
def setdata (v : Word) : Transaction := wr32 0x8008 v
/-- R79: `RD32 0x800C`, the read of RESULT that ends the GET lines. -/
def rdresult : Transaction := rd32 0x800C

/-- R79. -/
def nop : List Transaction := [cmd 0x00000000#32]
/-- R79. -/
def start : List Transaction := [cmd 0x01000000]
/-- R79. -/
def stop : List Transaction := [cmd 0x02000000]
/-- R79. -/
def pause : List Transaction := [cmd 0x03000000]
/-- R79. -/
def resume : List Transaction := [cmd 0x04000000]
/-- R79: `SETPROP l, k`. -/
def setprop (l : Int) (k : Byte) : List Transaction := [cmd (0x10#8 ++ k ++ h16 l)]
/-- R79: `SETPROPS s, e, k`. -/
def setprops (s e : Int) (k : Byte) : List Transaction := [setdata ((h16 e).setWidth 32), cmd (0x11#8 ++ k ++ h16 s)]
/-- R79: `GETPROP l`. -/
def getprop (l : Int) : List Transaction := [cmd (0x12#8 ++ 0#8 ++ h16 l), rdresult]
/-- R79: `PUTPIX m, x, y, v`. -/
def putpix (m : Mode) (x y : Int) (v : BitVec 1) : List Transaction :=
  [setxy y x, cmd (0x20#8 ++ 0#6 ++ m.bits ++ 0#15 ++ v)]
/-- R79: `PUTPIX8 m, bx, y, b`. -/
def putpix8 (m : Mode) (bx y : Int) (b : Byte) : List Transaction := [setxy y bx, cmd (0x21#8 ++ 0#6 ++ m.bits ++ 0#8 ++ b)]
/-- R79: `PUTPIX32 m, wx, y, w`. -/
def putpix32 (m : Mode) (wx y : Int) (w : Word) : List Transaction :=
  [setxy y wx, setdata w, cmd (0x22#8 ++ 0#6 ++ m.bits ++ 0#16)]
/-- R79: `GETPIX x, y`. -/
def getpix (x y : Int) : List Transaction := [setxy y x, cmd 0x24000000, rdresult]
/-- R79: `GETPIX8 bx, y`. -/
def getpix8 (bx y : Int) : List Transaction := [setxy y bx, cmd 0x25000000, rdresult]
/-- R79: `GETPIX32 wx, y`. -/
def getpix32 (wx y : Int) : List Transaction := [setxy y wx, cmd 0x26000000, rdresult]
/-- R79: `FILL b`. -/
def fill (b : Byte) : List Transaction := [cmd (0x30#8 ++ 0#16 ++ b)]
/-- R79: `RDSTATUS`. -/
def rdstatus : List Transaction := [rd32 0x8010]

/-- R80: `TICK`, from a state between ticks: a request, phase 1, a completion if RUNNING = 1 and SER_BUSY = 1, phase 2. -/
def tick (s : State) : List Agent :=
  [.tmr, .seq] ++ (if s.running && s.serBusy then [.ser] else []) ++ [.seq]
/-- R80: `SERDONE`. -/
def serdone : List Agent := [.ser]

end Asm

/-- R54: the host address of a window offset. -/
def hostAddress (off : BitVec 16) : Nat := Config.blockBase + off.toNat

/-- R54: the window offset of a host address; none outside the engine's 64 KiB window, which is the platform's (R55). -/
def windowOffset (address : Nat) : Option (BitVec 16) :=
  if Config.blockBase ≤ address ∧ address < Config.blockBase + 0x10000 then
    some (BitVec.ofNat 16 (address - Config.blockBase))
  else none

end Sys2Proof.Machine
end

