-- ==== Sys2Proof/Safety.lean ====
section
/-! DEFINITION. What counts as a legal state and as a safe run, in the terms the statements use. -/

namespace Sys2Proof.Safety

open Sys2Proof.Machine

/-- R96: the serializer holds SER_BUSY exactly while it is shifting a line out. -/
abbrev serHandshake (s : State) : Prop := s.serLive = s.serBusy

/-- R27, R28, R92: the scanline cursor is the cursor of line LINE. -/
abbrev cursorOk (s : State) : Prop :=
  s.line.toNat < Config.totalLines ∧ s.bufsel = bufselOf s.line.toNat ∧
    (s.vtarget = .vbegin ↔ Config.vsyncBeginLine ≤ s.line.toNat ∧ s.line.toNat < Config.vsyncEndLine)

/-- R43, R51, R107: the operation in flight has a step left and stays inside its storage. -/
abbrev hopOk (s : State) : Prop :=
  match s.hop with
  | .none => True
  | .bytes mode next rest => mode ≠ .reserved ∧ rest ≠ [] ∧ next + rest.length ≤ Config.fbBytes
  | .fill next _ => next < Config.fbBytes
  | .props next stop _ => s.lpe = true ∧ next < stop ∧ stop ≤ Config.visibleLines

/-- R109: in a build without line properties the table stays empty and COLOR stays 0b00. -/
abbrev lpeOk (s : State) : Prop := s.lpe = false → s.lpt = [] ∧ s.color = 0b00#2

/-- R31, R99, R103: a stopped engine has no request pending and no tick in progress. -/
abbrev stoppedOk (s : State) : Prop := s.enabled = false → s.tickPending = false ∧ s.phase = .idle

/-- The legal states. -/
abbrev legal (s : State) : Prop :=
  Memory.wf s.fb ∧ Memory.lptWf s.lpt ∧ cursorOk s ∧ hopOk s ∧ lpeOk s ∧ stoppedOk s ∧ serHandshake s ∧
    s.hsyncN = true ∧ s.serBuf.length = Config.bwidth

/-- R100, R128: the instruction a transaction stands for: the command it carries, or the transaction itself. -/
def commandOf (i : Instr) : Instr :=
  match i with
  | .wrCmd w => decodeCommand w
  | _ => i

/-- 93 section 2: an instruction outside S1 to S6, whose effect is more than the spec's own no-op or read of 0. -/
def inContract (i : Instr) : Bool :=
  match commandOf i with
  | .reservedOpc _ | .regByte _ _ | .regOther32 _ _ => false
  | .putpix mode _ | .putpix8 mode _ | .putpix32 mode => mode != .reserved
  | .fbRd8 off | .fbWr8 off _ => off.toNat < Config.fbBytes
  | .fbRd32 off | .fbWr32 off _ => rawWordOk off
  | .nop | .start | .stop | .pause | .resume | .setprop _ _ | .setprops _ _ | .getprop _ | .getpix | .getpix8 | .getpix32
  | .fill _ | .wrCmd _ | .wrXy _ | .wrData _ | .rdCmd | .rdXy | .rdData | .rdResult | .rdStatus => true

/-- What HOST issues in the next turn, if it does (R50, R123). -/
def issued (s : State) : Option Instr :=
  if nextAgent s = .host ∧ s.phase = .idle ∧ s.hop = .none then
    match s.bus with
    | t :: _ => some (commandOf (decodeBus t))
    | [] => none
  else none

/-- An event without the pixels it carries. -/
def withoutPixels : Event → Event
  | .prep line _ => .prep line []
  | .hs v => .hs v
  | .col c => .col c
  | .vs v => .vs v
  | .xmit => .xmit
  | .ka => .ka

/-- R153: all of the state but the framebuffer and what was read out of it. -/
def syncView (s : State) : State :=
  { s with fb := [], fbEpoch := 0, serBuf := [], result := 0, rdata := 0, trace := s.trace.map withoutPixels }

/-- The events of a trace that hand pixels to the serializer. -/
def preps (trace : List Event) : List Event := trace.filter (fun e => match e with | .prep _ _ => true | _ => false)

/-- R90, R91: the ticks a trace completes: each ends in its one KA. -/
def ticksDone (trace : List Event) : Nat := trace.count .ka

/-- R92: `t` holds the cursor of the line `k` ticks after the line of `s`, which after whole frames is the cursor of `s`. -/
abbrev cursorAfter (k : Nat) (s t : State) : Prop :=
  cursorOk t ∧ t.line.toNat = (s.line.toNat + k) % Config.totalLines ∧
    (k % Config.totalLines = 0 → t.line = s.line ∧ t.bufsel = s.bufsel ∧ t.vtarget = s.vtarget)

/-- The turns of a tick with any turns of other agents before its phase 1 (`p.1`) and between its phases (`p.2`). -/
def tickTurns (p : List Agent × List Agent) : List Agent := p.1 ++ .seq :: (p.2 ++ [.seq])

/-- What is left when the framebuffer is set aside. -/
abbrev sameButFb (t s : State) : Prop := { t with fb := s.fb } = s
/-- What is left when the framebuffer and HOP are set aside. -/
abbrev sameButFbHop (t s : State) : Prop := { t with fb := s.fb, hop := s.hop } = s
/-- What is left when the line-properties table is set aside. -/
abbrev sameButLpt (t s : State) : Prop := { t with lpt := s.lpt } = s
/-- What is left when the line-properties table and HOP are set aside. -/
abbrev sameButLptHop (t s : State) : Prop := { t with lpt := s.lpt, hop := s.hop } = s

end Sys2Proof.Safety
end

