-- ==== Sys2Proof/Certificates/Slice0/Obligations.lean ====
section
/-! DEFINITION. The statements for the provers, from the numbered rules of spec/. A statement about exec answers a next state
for every state and operands its hypotheses admit; `Host.Core.run Sys2Proof.core k s` is k turns from s. Every statement
holds whatever the free values Config.fbDraw and Config.freeAgent are. -/

open Sys2Proof Sys2Proof.Machine Sys2Proof.Safety

/-! ## Decoding and encoding -/

/-- R63 to R73: no operand of a well-formed instruction is lost between the encoder and the decoder. -/
def Obligations.DecodeOfEncodeIsTheInstruction : Prop :=
  ∀ i : Instr, WellFormed i = true → decode (encode i) = i

/-- R65, R74: every word of either level decodes to an instruction that some word encodes. -/
def Obligations.EveryWordDecodesToWellFormed : Prop :=
  ∀ e : Encoded, WellFormed (decode e) = true

/-- R64, R65: no bit of BT is dropped: the class and the operands of a transaction give its BT back. -/
def Obligations.TransactionWordIsRebuiltFromItsInstruction : Prop :=
  ∀ t : Transaction, ∃ d : Word, encode (decodeBus t) = .transaction ⟨t.bt, d⟩

/-- R65: the rows of the transaction table. BT[17:15] = (WE, SZ, ADDR[15]). -/
def Obligations.TransactionTableRowsDecode : Prop :=
  ∀ (off : BitVec 15) (d : Word) (we : Bool),
    decodeBus ⟨0b000#3 ++ off, d⟩ = .fbRd8 off ∧
    decodeBus ⟨0b100#3 ++ off, d⟩ = .fbWr8 off (d.extractLsb' 0 8) ∧
    decodeBus ⟨0b010#3 ++ off, d⟩ = .fbRd32 off ∧
    decodeBus ⟨0b110#3 ++ off, d⟩ = .fbWr32 off d ∧
    decodeBus ⟨0x38000#18, d⟩ = .wrCmd d ∧
    decodeBus ⟨0x38004#18, d⟩ = .wrXy d ∧
    decodeBus ⟨0x38008#18, d⟩ = .wrData d ∧
    decodeBus ⟨0x18000#18, d⟩ = .rdCmd ∧
    decodeBus ⟨0x18004#18, d⟩ = .rdXy ∧
    decodeBus ⟨0x18008#18, d⟩ = .rdData ∧
    decodeBus ⟨0x1800C#18, d⟩ = .rdResult ∧
    decodeBus ⟨0x18010#18, d⟩ = .rdStatus ∧
    decodeBus ⟨BitVec.ofBool we ++ 0b01#2 ++ off, d⟩ = .regByte we off ∧
    (off ∉ [0x0000#15, 0x0004#15, 0x0008#15] → decodeBus ⟨0b111#3 ++ off, d⟩ = .regOther32 true off) ∧
    (off ∉ [0x0000#15, 0x0004#15, 0x0008#15, 0x000C#15, 0x0010#15] →
      decodeBus ⟨0b011#3 ++ off, d⟩ = .regOther32 false off)

/-- R67 to R73, R75: the rows of the opcode map with their formats; a field marked ignored (`c`, `hi`, `mid`, `v7`, `f`, `k`
where it is not used) may hold anything. -/
def Obligations.CommandWordsDecodeByTheirFormat : Prop :=
  ∀ (c : BitVec 24) (k : Byte) (l : BitVec 16) (hi : BitVec 6) (m : BitVec 2) (mid : BitVec 8) (d8 : Byte) (v7 : BitVec 7)
      (v : BitVec 1) (f : BitVec 16),
    decodeCommand (0x00#8 ++ c) = .nop ∧ decodeCommand (0x01#8 ++ c) = .start ∧ decodeCommand (0x02#8 ++ c) = .stop ∧
    decodeCommand (0x03#8 ++ c) = .pause ∧ decodeCommand (0x04#8 ++ c) = .resume ∧
    decodeCommand (0x10#8 ++ k ++ l) = .setprop k l ∧ decodeCommand (0x11#8 ++ k ++ l) = .setprops k l ∧
    decodeCommand (0x12#8 ++ k ++ l) = .getprop l ∧
    decodeCommand (0x20#8 ++ hi ++ m ++ mid ++ v7 ++ v) = .putpix (Mode.ofBits m) v ∧
    decodeCommand (0x21#8 ++ hi ++ m ++ mid ++ d8) = .putpix8 (Mode.ofBits m) d8 ∧
    decodeCommand (0x22#8 ++ hi ++ m ++ mid ++ d8) = .putpix32 (Mode.ofBits m) ∧
    decodeCommand (0x24#8 ++ c) = .getpix ∧ decodeCommand (0x25#8 ++ c) = .getpix8 ∧
    decodeCommand (0x26#8 ++ c) = .getpix32 ∧ decodeCommand (0x30#8 ++ f ++ d8) = .fill d8 ∧
    Mode.ofBits 0b00 = .set ∧ Mode.ofBits 0b01 = .or ∧ Mode.ofBits 0b10 = .xor ∧ Mode.ofBits 0b11 = .reserved

/-- R74: the reserved opcodes, and that a command word with one is consumed without effect (93 S1: the model takes the stated
no-op instead of refusing, log 12). -/
def Obligations.ReservedOpcodesAreConsumedWithNoEffect : Prop :=
  (∀ opc : BitVec 8, opcodeOf opc = none ↔
    (0x05 ≤ opc ∧ opc ≤ 0x0F) ∨ (0x13 ≤ opc ∧ opc ≤ 0x1F) ∨ opc = 0x23 ∨ (0x27 ≤ opc ∧ opc ≤ 0x2F) ∨ 0x31 ≤ opc) ∧
  ((List.range 256).filter (fun n => (opcodeOf (BitVec.ofNat 8 n)).isNone)).length = 241 ∧
  (∀ (w : Word) (s : State), opcodeOf (cmdOpc w) = none →
    decodeCommand w = .reservedOpc (cmdOpc w) ∧ exec (.reservedOpc (cmdOpc w)) s = .next s ∧ exec (.wrCmd w) s = .next s)

/-- A sanity check: words written out from the encodings of R67 to R70 and R64 decode to what they stand for. -/
def Obligations.WrittenOutWordsDecode : Prop :=
  decode (.command 0x01000000) = .start ∧ decode (.command 0x1101FFFB) = .setprops 0x01 0xFFFB ∧
  decode (.command 0x210200FF) = .putpix8 .xor 0xFF ∧ decode (.command 0x300000AA) = .fill 0xAA ∧
  decode (.transaction ⟨0x30004, 0x000000FF⟩) = .fbWr32 0x0004 0x000000FF ∧
  decode (.transaction ⟨0x28000, 0x01⟩) = .regByte true 0x0000

/-! ## HOST's turn -/

/-- R50, R123: between ticks and with no operation in flight, HOST's turn is `exec` of the instruction its next transaction
decodes to, the transaction taken off its program and the turn off the schedule. -/
def Obligations.HostTurnRunsTheDecodedTransaction : Prop :=
  ∀ (s : State) (agents : List Agent) (t : Transaction) (rest : List Transaction),
    s.sched = .host :: agents → s.bus = t :: rest → s.phase = .idle → s.hop = .none →
      step s = exec (decodeBus t) { s with sched := agents, bus := rest }

/-- R100, R128: WR_CMD executes its command word. -/
def Obligations.WriteCommandExecutesItsWord : Prop :=
  ∀ (w : Word) (s : State), exec (.wrCmd w) s = exec (decodeCommand w) s ∧ ∃ t, exec (.wrCmd w) s = .next t

/-- Log 14: the word the opcode table numbers, given to HOST, is run by the very next step. The interface is the model's. -/
def Obligations.PlacedTableWordRunsNext : Prop :=
  ∀ (s : State) (nbits w : Nat) (i : Instr), decodeTableWord nbits w = some i →
    step (s.withFetchWord nbits w) = exec i { s with phase := .idle, hop := .none }

/-- R50, R51: while an operation is in flight HOST's turn is its next byte or entry step, and no transaction is issued. -/
def Obligations.HostTurnContinuesTheOperationInFlight : Prop :=
  ∀ (s : State) (agents : List Agent), s.sched = .host :: agents → s.phase = .idle → s.hop ≠ .none →
    ∃ t, step s = .next t ∧ t = hopStep { s with sched := agents } ∧ t.bus = s.bus

/-- R51 item 1, R155: while a tick is in progress HOST's turn changes nothing. -/
def Obligations.HostHoldsWhileATickIsInProgress : Prop :=
  ∀ (s : State) (agents : List Agent), s.sched = .host :: agents → s.phase = .waitSer →
    step s = .next { s with sched := agents }

/-! ## Control commands -/

/-- R101 to R105: what NOP, START, STOP, PAUSE and RESUME do, and that they do nothing else, whatever CMD[23:0] holds. -/
def Obligations.ControlCommandsWriteTheirBits : Prop :=
  ∀ (s : State) (c : BitVec 24),
    exec .nop s = .next s ∧ exec (.wrCmd (0x00#8 ++ c)) s = .next s ∧
    exec .start s =
      .next { s with enabled := true, line := 0, bufsel := .row 0, vtarget := .vend, tickPending := false } ∧
    exec (.wrCmd (0x01#8 ++ c)) s = exec .start s ∧
    exec .stop s = .next { s with enabled := false, tickPending := false } ∧
    exec (.wrCmd (0x02#8 ++ c)) s = exec .stop s ∧
    exec .pause s = .next { s with running := false } ∧ exec (.wrCmd (0x03#8 ++ c)) s = exec .pause s ∧
    exec .resume s = .next { s with running := true } ∧ exec (.wrCmd (0x04#8 ++ c)) s = exec .resume s

/-! ## Line properties -/

/-- R106: SETPROP writes one entry of a visible line, in a build with line properties, and nothing else. -/
def Obligations.SetpropWritesOneVisibleEntry : Prop :=
  ∀ (mask : Byte) (line : BitVec 16) (s : State), ∃ t, exec (.setprop mask line) s = .next t ∧ sameButLpt t s ∧
    ∀ l : Nat, lptRead t l =
      if s.lpe = true ∧ 0 ≤ s16 line ∧ s16 line < 480 ∧ s16 line = l then mask else lptRead s l

/-- R107, R52: SETPROPS writes the clamped range [max(0, S), min(E, 480)) in increasing order, one entry a step: after `j`
steps past its first, the entries below lo + j + 1 hold the mask; it completes with its last entry. An empty range, or a
build without line properties, has no effect. -/
def Obligations.SetpropsWritesTheClampedRangeInOrder : Prop :=
  ∀ (mask : Byte) (line : BitVec 16) (s : State) (lo hi : Int),
    lo = max 0 (s16 line) → hi = min (s16 (s.data.extractLsb' 0 16)) 480 →
    (¬(s.lpe = true ∧ lo < hi) → exec (.setprops mask line) s = .next s) ∧
    (s.lpe = true ∧ lo < hi → ∃ t, exec (.setprops mask line) s = .next t ∧
      ∀ j : Nat, lo + j < hi → sameButLptHop (hopRun j t) s ∧ ((hopRun j t).hop = .none ↔ lo + j + 1 = hi) ∧
        ∀ l : Nat, lptRead (hopRun j t) l = if lo ≤ l ∧ l ≤ lo + j then mask else lptRead s l)

/-- R108: GETPROP puts the entry of a visible line in RESULT, 0 for any other line or build. -/
def Obligations.GetpropReadsAVisibleEntry : Prop :=
  ∀ (line : BitVec 16) (s : State), exec (.getprop line) s = .next { s with result :=
    (if s.lpe = true ∧ 0 ≤ s16 line ∧ s16 line < 480 then (lptRead s (s16 line).toNat).setWidth 32 else 0x00000000#32) }

/-- R108, L1.2: SETPROP y, m then GETPROP y gives m for every visible line. -/
def Obligations.SetpropThenGetpropGivesTheMask : Prop :=
  ∀ (mask : Byte) (line : BitVec 16) (s : State), s.lpe = true → 0 ≤ s16 line → s16 line < 480 →
    ∃ t u, exec (.setprop mask line) s = .next t ∧ exec (.getprop line) t = .next u ∧ u.result = mask.setWidth 32

/-- R109: the feature compiled out. -/
def Obligations.WithoutLinePropsTheFeatureIsAbsent : Prop :=
  ∀ (mask : Byte) (line : BitVec 16) (s t : State), s.lpe = false →
    exec (.setprop mask line) s = .next s ∧ exec (.setprops mask line) s = .next s ∧
    exec (.getprop line) s = .next { s with result := 0x00000000#32 } ∧
    ((phase1 s).color = s.color ∧ (phase1 s).trace = s.trace ++ [.hs false, .hs true, .vs (s.vtarget = .vend)]) ∧
    (lpeOk s → hopOk s → step s = .next t → t.lpe = false ∧ (∀ l, lptRead t l = 0x00#8) ∧ lpeOk t) ∧
    (status s).getLsbD 4 = false

/-! ## Pixels -/

/-- R112: the combine function, lane by lane; XOR twice restores; nothing to update leaves OR and XOR as they are. -/
def Obligations.CombineIsBitwisePerLane : Prop :=
  (∀ (o n k : Byte) (i : Nat),
    (comb .set o n k).getLsbD i = (if k.getLsbD i then n.getLsbD i else o.getLsbD i) ∧
    (comb .or o n k).getLsbD i = (o.getLsbD i || (n.getLsbD i && k.getLsbD i)) ∧
    (comb .xor o n k).getLsbD i = (o.getLsbD i ^^ (n.getLsbD i && k.getLsbD i))) ∧
  (∀ o n k : Byte, comb .xor (comb .xor o n k) n k = o) ∧
  (∀ o n k : Byte, n &&& k = 0 → comb .or o n k = o ∧ comb .xor o n k = o)

/-- R113, R76: PUTPIX updates bit 7 − X mod 8 of byte 64·Y + X div 8 of an in-range pixel in a defined mode; else nothing.
That MODE 0b11 changes nothing is the model's choice (log 12, DESIGN CHOICE; 93 S2): the spec asks to refuse it. -/
def Obligations.PutpixUpdatesOneBit : Prop :=
  ∀ (mode : Mode) (v : BitVec 1) (s : State) (x y : Int),
    x = s16 (s.xy.extractLsb' 0 16) → y = s16 (s.xy.extractLsb' 16 16) →
    ∃ t, exec (.putpix mode v) s = .next t ∧ sameButFb t s ∧
      ∀ a i : Nat, i < 8 → (fbRead t a).getLsbD i =
        if mode ≠ .reserved ∧ 0 ≤ x ∧ x < 512 ∧ 0 ≤ y ∧ y < 480 ∧ 64 * y + x / 8 = a ∧ 7 - x % 8 = i then
          match mode with
          | .set => v == 1
          | .or => (fbRead s a).getLsbD i || v == 1
          | .xor => (fbRead s a).getLsbD i ^^ v == 1
          | .reserved => (fbRead s a).getLsbD i
        else (fbRead s a).getLsbD i

/-- R114, R76: PUTPIX8 combines D8 into byte 64·Y + X of an in-range byte column in a defined mode; else nothing. That MODE
0b11 changes nothing is the model's choice (log 12, DESIGN CHOICE; 93 S2): the spec asks to refuse it. -/
def Obligations.Putpix8CombinesOneByte : Prop :=
  ∀ (mode : Mode) (d8 : Byte) (s : State) (x y : Int),
    x = s16 (s.xy.extractLsb' 0 16) → y = s16 (s.xy.extractLsb' 16 16) →
    ∃ t, exec (.putpix8 mode d8) s = .next t ∧ sameButFb t s ∧
      ∀ a : Nat, fbRead t a =
        if mode ≠ .reserved ∧ 0 ≤ x ∧ x < 64 ∧ 0 ≤ y ∧ y < 480 ∧ 64 * y + x = a then comb mode (fbRead s a) d8 0xFF#8
        else fbRead s a

/-- R115, R52, R58, R76: PUTPIX32 combines the four bytes of DATA, most significant first, into bytes 64·Y + 4·X onward, one a
step: after `j` steps past its first, exactly the first j + 1 bytes are new, and with the fourth it completes. Out of range it
has no effect. That MODE 0b11 has no effect either is the model's choice (log 12, DESIGN CHOICE; 93 S2). -/
def Obligations.Putpix32CombinesFourBytesInOrder : Prop :=
  ∀ (mode : Mode) (s : State) (x y : Int),
    x = s16 (s.xy.extractLsb' 0 16) → y = s16 (s.xy.extractLsb' 16 16) →
    (¬(mode ≠ .reserved ∧ 0 ≤ x ∧ x < 16 ∧ 0 ≤ y ∧ y < 480) → exec (.putpix32 mode) s = .next s) ∧
    (mode ≠ .reserved ∧ 0 ≤ x ∧ x < 16 ∧ 0 ≤ y ∧ y < 480 → ∃ t, exec (.putpix32 mode) s = .next t ∧
      ∀ j : Nat, j ≤ 3 → sameButFbHop (hopRun j t) s ∧ ((hopRun j t).hop = .none ↔ j = 3) ∧
        ∀ b : Nat, fbRead (hopRun j t) b =
          if 64 * y + 4 * x ≤ b ∧ b ≤ 64 * y + 4 * x + j then
            comb mode (fbRead s b) (s.data.extractLsb' (24 - 8 * (b - (64 * y + 4 * x).toNat)) 8) 0xFF#8
          else fbRead s b)

/-- R116 to R118: GETPIX, GETPIX8 and GETPIX32 put the pixel, the byte, the big-endian word in RESULT, 0 out of range. -/
def Obligations.GetCommandsReadTheFramebuffer : Prop :=
  ∀ (s : State) (x y : Int), x = s16 (s.xy.extractLsb' 0 16) → y = s16 (s.xy.extractLsb' 16 16) →
    exec .getpix s = .next { s with result :=
      (if 0 ≤ x ∧ x < 512 ∧ 0 ≤ y ∧ y < 480 then
        (BitVec.ofBool ((fbRead s (64 * y + x / 8).toNat).getLsbD (7 - x % 8).toNat)).setWidth 32
      else 0x00000000#32) } ∧
    exec .getpix8 s = .next { s with result :=
      (if 0 ≤ x ∧ x < 64 ∧ 0 ≤ y ∧ y < 480 then (fbRead s (64 * y + x).toNat).setWidth 32 else 0x00000000#32) } ∧
    exec .getpix32 s = .next { s with result :=
      (if 0 ≤ x ∧ x < 16 ∧ 0 ≤ y ∧ y < 480 then
        fbRead s (64 * y + 4 * x).toNat ++ fbRead s (64 * y + 4 * x + 1).toNat ++ fbRead s (64 * y + 4 * x + 2).toNat ++
          fbRead s (64 * y + 4 * x + 3).toNat
      else 0x00000000#32) }

/-- R116, L1.5: PUTPIX SET v at an in-range pixel, then GETPIX there, gives v. -/
def Obligations.PutpixThenGetpixGivesThePixel : Prop :=
  ∀ (v : BitVec 1) (s : State), (pixelIndex (opX s) (opY s)).isSome →
    ∃ t u, exec (.putpix .set v) s = .next t ∧ exec .getpix t = .next u ∧ u.result = v.setWidth 32

/-- R119, R52: FILL writes every byte in increasing order, one a step: after `j` steps past its first, exactly the first j + 1
bytes hold D8; it completes with byte 30719. -/
def Obligations.FillWritesEveryByteInOrder : Prop :=
  ∀ (d8 : Byte) (s : State), ∃ t, exec (.fill d8) s = .next t ∧
    ∀ j : Nat, j < 30720 → sameButFbHop (hopRun j t) s ∧ ((hopRun j t).hop = .none ↔ j = 30719) ∧
      ∀ a : Nat, fbRead (hopRun j t) a = if a ≤ j then d8 else fbRead s a

/-- R120: the three views agree: GETPIX x, y is a bit of GETPIX8, of GETPIX32 and of the raw byte. -/
def Obligations.PixelByteAndWordViewsAgree : Prop :=
  ∀ (s : State) (x y : Nat), x < 512 → y < 480 →
    ∃ p b w r : State,
      exec .getpix { s with xy := BitVec.ofNat 16 y ++ BitVec.ofNat 16 x } = .next p ∧
      exec .getpix8 { s with xy := BitVec.ofNat 16 y ++ BitVec.ofNat 16 (x / 8) } = .next b ∧
      exec .getpix32 { s with xy := BitVec.ofNat 16 y ++ BitVec.ofNat 16 (x / 32) } = .next w ∧
      exec (.fbRd8 (BitVec.ofNat 15 (64 * y + x / 8))) s = .next r ∧
      p.result = (BitVec.ofBool (b.result.getLsbD (7 - x % 8))).setWidth 32 ∧
      b.result.getLsbD (7 - x % 8) = w.result.getLsbD (31 - x % 32) ∧
      b.result.getLsbD (7 - x % 8) = r.rdata.getLsbD (7 - x % 8)

/-! ## Bus transactions -/

/-- R124, R126, R47: raw reads answer on RDATA and change nothing else. That the aperture tail and a misaligned word read 0 is
the model's choice (log 12, DESIGN CHOICE; 93 S3, S5): the spec asks to refuse them. -/
def Obligations.RawReadsAnswerFramebufferBytes : Prop :=
  ∀ (off : BitVec 15) (s : State) (a : Nat), a = off.toNat →
    exec (.fbRd8 off) s = .next { s with rdata := if a < 30720 then (fbRead s a).setWidth 32 else 0x00000000#32 } ∧
    exec (.fbRd32 off) s = .next { s with rdata :=
      (if a % 4 ≠ 0 ∨ a + 3 ≥ 30720 then 0x00000000#32
      else fbRead s (a + 3) ++ fbRead s (a + 2) ++ fbRead s (a + 1) ++ fbRead s a) }

/-- R125: a raw byte write stores one byte. That a write past the framebuffer stores nothing is the model's choice (log 12,
DESIGN CHOICE; 93 S5): the spec asks to refuse it. -/
def Obligations.RawByteWriteStoresOneByte : Prop :=
  ∀ (off : BitVec 15) (d : Byte) (s : State), ∃ t, exec (.fbWr8 off d) s = .next t ∧ sameButFb t s ∧
    ∀ a : Nat, fbRead t a = if off.toNat < 30720 ∧ a = off.toNat then d else fbRead s a

/-- R127, R47, R52: a raw word write stores four bytes in increasing index, least significant first, one a step. That a
misaligned write or one past the framebuffer has no effect is the model's choice (log 12, DESIGN CHOICE; 93 S3, S5). -/
def Obligations.RawWordWriteStoresFourBytesInOrder : Prop :=
  ∀ (off : BitVec 15) (d : Word) (s : State) (a : Nat), a = off.toNat →
    (¬(a % 4 = 0 ∧ a + 3 < 30720) → exec (.fbWr32 off d) s = .next s) ∧
    (a % 4 = 0 ∧ a + 3 < 30720 → ∃ t, exec (.fbWr32 off d) s = .next t ∧
      ∀ j : Nat, j ≤ 3 → sameButFbHop (hopRun j t) s ∧ ((hopRun j t).hop = .none ↔ j = 3) ∧
        ∀ b : Nat, fbRead (hopRun j t) b =
          if a ≤ b ∧ b ≤ a + j then d.extractLsb' (8 * (b - a)) 8 else fbRead s b)

/-- R47, R127, R162: storing the byte-swap of a pixel word through the raw window leaves the framebuffer as PUTPIX32 SET of the
word does. -/
def Obligations.ByteSwappedRawWriteEqualsPutpix32 : Prop :=
  ∀ (b0 b1 b2 b3 : Byte) (wx y : Nat) (s : State), wx < 16 → y < 480 → s.hop = .none →
    ∃ t u, exec (.putpix32 .set) { s with xy := BitVec.ofNat 16 y ++ BitVec.ofNat 16 wx, data := b0 ++ b1 ++ b2 ++ b3 } =
        .next t ∧
      exec (.fbWr32 (BitVec.ofNat 15 (64 * y + 4 * wx)) (b3 ++ b2 ++ b1 ++ b0)) s = .next u ∧
      (finishHop t).hop = .none ∧ (finishHop u).hop = .none ∧ ∀ a, fbRead (finishHop t) a = fbRead (finishHop u) a

/-- R129 to R131: the host registers as HOST writes and reads them; a write reads back. -/
def Obligations.HostRegistersReadAsWritten : Prop :=
  ∀ (w : Word) (s : State),
    exec (.wrXy w) s = .next { s with xy := w } ∧ exec (.wrData w) s = .next { s with data := w } ∧
    exec .rdCmd s = .next { s with rdata := 0x00000000#32 } ∧ exec .rdXy s = .next { s with rdata := s.xy } ∧
    exec .rdData s = .next { s with rdata := s.data } ∧ exec .rdResult s = .next { s with rdata := s.result } ∧
    exec .rdStatus s = .next { s with rdata := status s } ∧
    exec .rdXy { s with xy := w } = .next { s with xy := w, rdata := w } ∧
    exec .rdData { s with data := w } = .next { s with data := w, rdata := w }

/-- R42: the fields of STATUS. -/
def Obligations.StatusShowsItsFields : Prop :=
  ∀ s : State,
    (status s).getLsbD 0 = s.enabled ∧ (status s).getLsbD 1 = s.running ∧
    (status s).getLsbD 2 = decide (s.vtarget = .vbegin) ∧ (status s).getLsbD 3 = s.serBusy ∧
    (status s).getLsbD 4 = s.lpe ∧ (status s).getLsbD 5 = s.hsyncN ∧ (status s).getLsbD 6 = s.vsyncN ∧
    (status s).getLsbD 7 = false ∧ (status s).extractLsb' 8 2 = s.color ∧ (status s).extractLsb' 10 6 = 0 ∧
    (status s).extractLsb' 16 10 = s.line ∧ (status s).extractLsb' 26 6 = 0

/-- R132, R133: every access to the register window that no register answers, 32-bit or 8-bit: a write has no effect, a read
returns 0 (93 S3 to S6; log 12). -/
def Obligations.UnansweredRegisterAccessHasNoEffect : Prop :=
  ∀ (b : Transaction) (s : State), btReg b.bt = true →
    (btSz b.bt = true →
      b.bt ∉ [0x38000#18, 0x38004#18, 0x38008#18, 0x18000#18, 0x18004#18, 0x18008#18, 0x1800C#18, 0x18010#18] →
      decodeBus b = .regOther32 (btWe b.bt) (btOff b.bt) ∧
      exec (.regOther32 (btWe b.bt) (btOff b.bt)) s =
        .next (if btWe b.bt then s else { s with rdata := 0x00000000#32 })) ∧
    (btSz b.bt = false →
      decodeBus b = .regByte (btWe b.bt) (btOff b.bt) ∧
      exec (.regByte (btWe b.bt) (btOff b.bt)) s =
        .next (if btWe b.bt then s else { s with rdata := 0x00000000#32 }))

/-- 93 section 2 (S1 to S6): a read among these inputs answers 0 on RDATA and does nothing else; every other one of them, a
command in a WR_CMD included, changes nothing at all. This is the model's choice (log 12, DESIGN CHOICE): it takes the no-op
that the spec states instead of refusing. -/
def Obligations.OutOfContractHasNoEffect : Prop :=
  ∀ (i : Instr) (s : State), inContract i = false → exec i s = .next (match i with
    | .fbRd8 _ | .fbRd32 _ | .regByte false _ | .regOther32 false _ => { s with rdata := 0x00000000#32 }
    | _ => s)

/-! ## Timer, sequencer, serializer -/

/-- R82: TMR's turn: one request while ENABLED = 1, requests coalesce; no step while ENABLED = 0. -/
def Obligations.TimerRequestsOneTick : Prop :=
  ∀ (s : State) (agents : List Agent), s.sched = .tmr :: agents →
    step s = .next { s with sched := agents, tickPending := s.enabled || s.tickPending }

/-- R83, R84, R85: phase 1, its levels and its events in order. -/
def Obligations.PhaseOneDrivesSync : Prop :=
  ∀ (s : State) (agents : List Agent), s.sched = .seq :: agents → s.phase = .idle →
    step s = .next (if s.enabled = true ∧ s.tickPending = true then
      { s with
        sched := agents
        tickPending := false
        hsyncN := true
        color :=
          if s.lpe then (if s.line.toNat < 525 then (lptRead s s.line.toNat).extractLsb' 0 2 else 0b00#2) else s.color
        vsyncN := decide (s.vtarget = .vend)
        phase := .waitSer
        trace := s.trace ++ [.hs false] ++
          (if s.lpe then [.col (if s.line.toNat < 525 then (lptRead s s.line.toNat).extractLsb' 0 2 else 0b00#2)] else []) ++
          [.hs true, .vs (decide (s.vtarget = .vend))] }
      else { s with sched := agents })

/-- R86 to R90: phase 2: it holds while RUNNING = 1 and SER_BUSY = 1; else the transfer (when RUNNING = 1), the cursor's
advance with the VSYNC schedule for the new line, the new line's buffer, the keepalive. -/
def Obligations.PhaseTwoTransfersAndAdvances : Prop :=
  ∀ (s : State) (agents : List Agent) (l : Nat), s.sched = .seq :: agents → s.phase = .waitSer →
    serHandshake s → l = (s.line.toNat + 1) % 525 →
    step s = .next (if s.running = true ∧ s.serBusy = true then { s with sched := agents } else
      { s with
        sched := agents
        serBusy := s.running || s.serBusy
        serLive := s.running || s.serLive
        serBuf := if s.running then rowBytes s else s.serBuf
        line := BitVec.ofNat 10 l
        vtarget := if l = 492 then .vend else if l = 490 then .vbegin else s.vtarget
        bufsel := bufselOf l
        phase := .idle
        trace := s.trace ++ (if s.running then [.prep s.line (rowBytes s), .xmit] else []) ++ [.ka] })

/-- R87, R39, R44: what a transfer hands over: the 64 bytes of the selected row in increasing index, or 64 bytes of 0x00. -/
def Obligations.TransferHandsOverTheSelectedRow : Prop :=
  ∀ (s : State), (rowBytes s).length = 64 ∧
    ∀ k : Nat, k < 64 →
      (∀ r : Fin 480, s.bufsel = .row r → (rowBytes s)[k]? = some (fbRead s (64 * r.val + k))) ∧
      (s.bufsel = .blank → (rowBytes s)[k]? = some 0x00#8)

/-- R91: a complete tick, with any turns of HOST, TMR and SER between its phases, emits exactly the trace of R91; and no turn of
another agent emits an event. -/
def Obligations.CompleteTickEmitsItsTrace : Prop :=
  (∀ (s : State) (between rest : List Agent),
    s.sched = .seq :: (between ++ .seq :: rest) → (∀ a ∈ between, a = .host ∨ a = .tmr ∨ a = .ser) →
    s.phase = .idle → s.enabled = true → s.tickPending = true → serHandshake s →
    (s.running = true → s.serBusy = true → .ser ∈ between) →
    ∃ (t : State) (c : BitVec 2) (v : Bool) (bytes : List Byte),
      Host.Core.run Sys2Proof.core (between.length + 2) s = .next t ∧ t.phase = .idle ∧
      t.trace = s.trace ++ ([.hs false] ++ (if s.lpe then [.col c] else []) ++ [.hs true, .vs v] ++
        (if s.running then [.prep s.line bytes, .xmit] else []) ++ [.ka])) ∧
  (∀ s t : State, nextAgent s ≠ .seq → step s = .next t → t.trace = s.trace)

/-- R92, R28: the cursor is the cursor of its line, and every step keeps it so. -/
def Obligations.StepKeepsTheCursorOnItsLine : Prop :=
  ∀ s t : State, cursorOk s → step s = .next t → cursorOk t

/-- R92, L1.7: the cursor k complete ticks after line L0 is that of line (L0 + k) mod 525, so 525 ticks bring it back. First
for every run, whatever turns it holds, in which no START is issued and no reset comes; a tick is complete with its KA (R91).
Then that such runs exist for every number of ticks: with any turns of HOST, TMR and SER before each tick's phase 1 and between
its phases, a request and a completion among them, and no START or STOP in HOST's program, every tick of the schedule completes. -/
def Obligations.CursorIsPeriodicInTheTickCount : Prop :=
  (∀ (turns k : Nat) (s t : State), cursorOk s → Host.Core.run Sys2Proof.core turns s = .next t →
    (∀ (j : Nat) (u : State), j < turns → Host.Core.run Sys2Proof.core j s = .next u →
      nextAgent u ≠ .rst ∧ issued u ≠ some .start) →
    ticksDone t.trace = ticksDone s.trace + k → cursorAfter k s t) ∧
  (∀ (ticks : List (List Agent × List Agent)) (rest : List Agent) (s : State),
    cursorOk s → serHandshake s → s.phase = .idle → s.enabled = true →
    (∀ b ∈ s.bus, commandOf (decodeBus b) ≠ .start ∧ commandOf (decodeBus b) ≠ .stop) →
    (∀ p ∈ ticks, (∀ a ∈ p.1 ++ p.2, a = .host ∨ a = .tmr ∨ a = .ser) ∧ .tmr ∈ p.1 ∧ .ser ∈ p.1 ++ p.2) →
    s.sched = (ticks.map tickTurns).flatten ++ rest →
    ∃ t : State, Host.Core.run Sys2Proof.core (ticks.map tickTurns).flatten.length s = .next t ∧ t.phase = .idle ∧
      t.sched = rest ∧ ticksDone t.trace = ticksDone s.trace + ticks.length ∧ cursorAfter ticks.length s t)

/-- R93: what one tick puts out, by its line: COLOR, VSYNC_N, the bytes sent; and what it leaves alone. -/
def Obligations.TickOutputIsAFunctionOfItsLine : Prop :=
  ∀ (s : State) (rest : List Agent) (n : Nat), legal s → n = s.line.toNat → s.sched = .seq :: .seq :: rest →
    s.phase = .idle → s.enabled = true → s.tickPending = true → (s.running = true → s.serBusy = false) →
    ∃ t : State, Host.Core.run Sys2Proof.core 2 s = .next t ∧
      t.color = (if s.lpe then (if n ≤ 479 then (lptRead s n).extractLsb' 0 2 else 0b00#2) else s.color) ∧
      t.vsyncN = decide (¬(490 ≤ n ∧ n ≤ 491)) ∧ t.hsyncN = true ∧
      (s.running = true → t.serBuf =
        if n ≤ 479 then (List.range 64).map (fun k => fbRead s (64 * n + k)) else List.replicate 64 0x00#8) ∧
      t.fb = s.fb ∧ t.lpt = s.lpt ∧ t.hop = s.hop ∧ t.xy = s.xy ∧ t.data = s.data ∧ t.result = s.result ∧
      t.enabled = s.enabled ∧ t.running = s.running ∧ t.bus = s.bus ∧ t.rdata = s.rdata

/-- R95: SER's turn completes a transfer, if there is one. -/
def Obligations.SerializerCompletionDropsBusy : Prop :=
  ∀ (s : State) (agents : List Agent), s.sched = .ser :: agents →
    step s = .next (if s.serBusy then { s with sched := agents, serBusy := false, serLive := false }
      else { s with sched := agents })

/-- R40, R62, R87, R94, R96: a step only appends to the trace; a PREP in what it appends comes from phase 2 with RUNNING = 1
and SER_BUSY = 0, for the current line and the selected row, right before an XMIT; and the serializer's copy of a line
changes only with such a PREP, to its bytes, or by reset. -/
def Obligations.PrepIsIssuedOnlyToAFreeSerializer : Prop :=
  ∀ s t : State, step s = .next t → ∃ new, t.trace = s.trace ++ new ∧
    ((preps new = [] ∧ (t.serBuf = s.serBuf ∨ nextAgent s = .rst)) ∨
      (new = [.prep s.line (rowBytes s), .xmit, .ka] ∧ t.serBuf = rowBytes s ∧ nextAgent s = .seq ∧ s.phase = .waitSer ∧
        s.running = true ∧ s.serBusy = false))

/-- R156: a tick that waits for a serializer that never completes holds SEQ and HOST for ever: over any number of turns of
HOST, SEQ and TMR nothing changes but the request latch. -/
def Obligations.SerializerThatNeverCompletesHangsTheEngine : Prop :=
  ∀ (turns rest : List Agent) (s : State), s.phase = .waitSer → s.running = true → s.serBusy = true →
    s.sched = turns ++ rest → (∀ a ∈ turns, a = .host ∨ a = .seq ∨ a = .tmr) →
    ∃ t : State, Host.Core.run Sys2Proof.core turns.length s = .next t ∧
      { t with sched := s.sched, tickPending := s.tickPending } = s ∧ t.sched = rest

/-- 93 U1, R154: a serializer that dropped SER_BUSY while still shifting, and a transfer due: the model flags its fault. -/
def Obligations.PrepIntoALiveTransferFaults : Prop :=
  ∀ (s : State) (agents : List Agent), s.sched = .seq :: agents → s.phase = .waitSer → s.running = true →
    s.serBusy = false → s.serLive = true → step s = .fault .prepIntoLiveTransfer

/-- R134, R97: with a serializer that keeps R96 the machine never stops: every step of every agent answers a next state, and the
serializer's handshake is kept. -/
def Obligations.EngineNeverStopsUnderTheHandshake : Prop :=
  ∀ s : State, serHandshake s → ∃ t, step s = .next t ∧ serHandshake t

/-! ## Whole-machine rules -/

/-- R23, R21, R22, R100, R161: who writes the host's registers. -/
def Obligations.OnlyTheirWritersChangeHostRegisters : Prop :=
  ∀ s t : State, step s = .next t → nextAgent s ≠ .rst →
    (t.xy ≠ s.xy → issued s = some (.wrXy t.xy)) ∧
    (t.data ≠ s.data → issued s = some (.wrData t.data)) ∧
    (t.result ≠ s.result → (∃ l, issued s = some (.getprop l)) ∨ issued s = some .getpix ∨ issued s = some .getpix8 ∨
      issued s = some .getpix32)

/-- R25, R26, R27 to R32: who writes ENABLED, RUNNING and the scanline cursor. -/
def Obligations.OnlyTheirWritersChangeControlAndCursor : Prop :=
  ∀ s t : State, step s = .next t → nextAgent s ≠ .rst →
    (t.enabled ≠ s.enabled → issued s = some .start ∨ issued s = some .stop) ∧
    (t.running ≠ s.running → issued s = some .pause ∨ issued s = some .resume) ∧
    ((t.line ≠ s.line ∨ t.bufsel ≠ s.bufsel ∨ t.vtarget ≠ s.vtarget) →
      (issued s = some .start ∧ t.line = 0 ∧ t.bufsel = .row 0 ∧ t.vtarget = .vend) ∨
      (nextAgent s = .seq ∧ s.phase = .waitSer))

/-- R32: no bus transaction writes the scanline cursor, except a WR_CMD of START, which re-initialises it. -/
def Obligations.NoTransactionWritesTheCursorButStart : Prop :=
  ∀ (b : Transaction) (s t : State), exec (decodeBus b) s = .next t →
    (t.line = s.line ∧ t.bufsel = s.bufsel ∧ t.vtarget = s.vtarget) ∨
    (commandOf (decodeBus b) = .start ∧ t.line = 0 ∧ t.bufsel = .row 0 ∧ t.vtarget = .vend)

/-- R37, R38, R57, R110: who writes the framebuffer and the line-properties table: HOST alone, between ticks, by one of the
writing instructions or a further step of one; the sequencer, the timer and the serializer never. -/
def Obligations.OnlyHostWritesFramebufferAndTable : Prop :=
  ∀ s t : State, step s = .next t → nextAgent s ≠ .rst →
    (t.fb ≠ s.fb → nextAgent s = .host ∧ s.phase = .idle ∧ (s.hop ≠ .none ∨
      (∃ m v, issued s = some (.putpix m v)) ∨ (∃ m d, issued s = some (.putpix8 m d)) ∨
      (∃ m, issued s = some (.putpix32 m)) ∨ (∃ d, issued s = some (.fill d)) ∨
      (∃ o d, issued s = some (.fbWr8 o d)) ∨ (∃ o d, issued s = some (.fbWr32 o d)))) ∧
    (t.lpt ≠ s.lpt → nextAgent s = .host ∧ s.phase = .idle ∧ (s.hop ≠ .none ∨
      (∃ m l, issued s = some (.setprop m l)) ∨ (∃ m l, issued s = some (.setprops m l))))

/-- R33 to R35, R40: the sync and colour outputs change only in phase 1 of a tick, or by reset. -/
def Obligations.OutputsChangeOnlyInPhaseOne : Prop :=
  ∀ s t : State, step s = .next t → (t.hsyncN ≠ s.hsyncN ∨ t.vsyncN ≠ s.vsyncN ∨ t.color ≠ s.color) →
    nextAgent s = .rst ∨
    (nextAgent s = .seq ∧ s.phase = .idle ∧ s.enabled = true ∧ s.tickPending = true ∧ t.phase = .waitSer)

/-- R103, R147, R151: a stopped engine stays stopped, emits nothing and holds its outputs until a START is issued or a reset
comes. -/
def Obligations.StoppedEngineIsQuietUntilStart : Prop :=
  ∀ s t : State, s.enabled = false → s.phase = .idle → step s = .next t → nextAgent s ≠ .rst → issued s ≠ some .start →
    t.enabled = false ∧ t.phase = .idle ∧ t.trace = s.trace ∧ t.hsyncN = s.hsyncN ∧ t.vsyncN = s.vsyncN ∧
    t.color = s.color ∧ t.line = s.line ∧ t.bufsel = s.bufsel ∧ t.vtarget = s.vtarget

/-- R158, R104, R147: a paused engine stays paused and sends no line until a RESUME is issued or a reset comes. -/
def Obligations.PausedEngineSendsNoLine : Prop :=
  ∀ s t : State, s.running = false → step s = .next t →
    preps t.trace = preps s.trace ∧ (nextAgent s ≠ .rst → issued s ≠ some .resume → t.running = false)

/-- R153: the sync side never depends on the framebuffer: two states that differ only in the framebuffer and in what was read
out of it step alike, and still differ only there. -/
def Obligations.SyncIsIndependentOfTheFramebuffer : Prop :=
  ∀ s s' t : State, syncView s = syncView s' → step s = .next t → ∃ t', step s' = .next t' ∧ syncView t = syncView t'

/-- R27, R28, R43, R92, R96, R109, R110 and the canonical form of the two tables: every step from a legal state gives a legal
state. -/
def Obligations.StepKeepsStatesLegal : Prop :=
  ∀ s t : State, legal s → step s = .next t → legal t

/-- R110: in a legal state every blanking line's entry is 0x00, so a blanking line drives COLOR to 0b00. -/
def Obligations.BlankingEntriesAreZero : Prop :=
  ∀ s : State, legal s → (∀ l : Nat, 480 ≤ l → lptRead s l = 0x00#8) ∧
    (480 ≤ s.line.toNat → s.lpe = true → (phase1 s).color = 0b00#2)

/-! ## Reset -/

/-- R149, R150: the state after a reset, from any state and in any agent's step: every value of the table, whatever was in
flight; no event is emitted; the framebuffer is a new draw. -/
def Obligations.ResetPutsEveryStateAtItsValue : Prop :=
  ∀ (s : State) (agents : List Agent), s.sched = .rst :: agents → ∃ t, step s = .next t ∧
    t.enabled = false ∧ t.running = true ∧ t.line = 0 ∧ t.bufsel = .row 0 ∧ t.vtarget = .vend ∧ t.phase = .idle ∧
    t.tickPending = false ∧ t.hop = .none ∧ t.hsyncN = true ∧ t.vsyncN = true ∧ t.color = 0b00#2 ∧
    (∀ l : Nat, lptRead t l = 0x00#8) ∧ (∀ a : Nat, fbRead t a = Config.fbDraw (s.fbEpoch + 1) a) ∧
    t.xy = 0 ∧ t.data = 0 ∧ t.result = 0 ∧ status t = (if s.lpe then 0x00000072 else 0x00000062) ∧
    t.serBusy = false ∧ t.trace = s.trace

/-- R150: the reset state itself is legal. -/
def Obligations.ResetStateIsLegal : Prop := legal State.reset

/-! ## Programs of the host assembly -/

/-- R79, R117, R131: the pseudo-instruction GETPIX8, run by HOST with no other agent's turn between, answers the byte. -/
def Obligations.GetpixLineAnswersTheByte : Prop :=
  ∀ (s : State) (bx y : Nat) (agents : List Agent) (rest : List Transaction), bx < 64 → y < 480 → s.phase = .idle →
    s.hop = .none → s.sched = .host :: .host :: .host :: agents → s.bus = Asm.getpix8 bx y ++ rest →
    ∃ t : State, Host.Core.run Sys2Proof.core 3 s = .next t ∧ t.rdata = (fbRead s (64 * y + bx)).setWidth 32 ∧
      t.bus = rest ∧ t.sched = agents ∧ t.fb = s.fb
end

