-- ==== Sys2Proof/Laws/Decode.lean ====
section
/-! SUPPORT. The fields of the words the encoder builds, and the opcode map both ways. -/

namespace Sys2Proof

/-! ## Fields of a transaction word -/

section
variable (we sz reg : Bool) (off : BitVec 15)

/-- A bit of a transaction word, by the field it lies in. -/
theorem getLsbD_mkBt (i : Nat) : (mkBt we sz reg off).getLsbD i =
    if i < 15 then off.getLsbD i
    else (BitVec.ofBool we ++ BitVec.ofBool sz ++ BitVec.ofBool reg).getLsbD (i - 15) :=
  (BitVec.getLsbD_append (x := BitVec.ofBool we ++ BitVec.ofBool sz ++ BitVec.ofBool reg) (y := off)).trans (by simp)

@[simp] theorem btWe_mkBt : btWe (mkBt we sz reg off) = we := by
  rw [btWe, getLsbD_mkBt]; cases we <;> cases sz <;> cases reg <;> rfl
@[simp] theorem btSz_mkBt : btSz (mkBt we sz reg off) = sz := by
  rw [btSz, getLsbD_mkBt]; cases we <;> cases sz <;> cases reg <;> rfl
@[simp] theorem btReg_mkBt : btReg (mkBt we sz reg off) = reg := by
  rw [btReg, getLsbD_mkBt]; cases we <;> cases sz <;> cases reg <;> rfl
@[simp] theorem btOff_mkBt : btOff (mkBt we sz reg off) = off := by
  apply BitVec.eq_of_getLsbD_eq
  intro i hi
  simp only [btOff, BitVec.getLsbD_extractLsb', hi, decide_true, Bool.true_and, Nat.zero_add, getLsbD_mkBt, if_true]

end

/-- R64: a transaction word is made of its four fields. -/
theorem mkBt_fields (bt : BitVec 18) : mkBt (btWe bt) (btSz bt) (btReg bt) (btOff bt) = bt := by
  apply BitVec.eq_of_getLsbD_eq
  intro i hi
  rw [getLsbD_mkBt]
  rcases (by omega : i < 15 ∨ i = 15 ∨ i = 16 ∨ i = 17) with h | h | h | h
  · rw [if_pos h]
    simp [btOff, h]
  all_goals
    subst h
    simp only [btWe, btSz, btReg]
    cases bt.getLsbD 17 <;> cases bt.getLsbD 16 <;> cases bt.getLsbD 15 <;> rfl

/-! ## Fields of a command word -/

theorem extract_append_high {n m : Nat} (a : BitVec n) (b : BitVec m) : (a ++ b).extractLsb' m n = a := by
  apply BitVec.eq_of_getLsbD_eq
  intro i hi
  simp [BitVec.getLsbD_append, hi]

theorem extract_append_low {n m k j : Nat} (a : BitVec n) (b : BitVec m) (h : k + j ≤ m) :
    (a ++ b).extractLsb' k j = b.extractLsb' k j := by
  apply BitVec.eq_of_getLsbD_eq
  intro i hi
  simp [BitVec.getLsbD_append, hi, (by omega : k + i < m)]

theorem extract_append_skip {n m k j : Nat} (a : BitVec n) (b : BitVec m) (h : m ≤ k) :
    (a ++ b).extractLsb' k j = a.extractLsb' (k - m) j := by
  apply BitVec.eq_of_getLsbD_eq
  intro i hi
  have h1 : ¬k + i < m := by omega
  simp only [BitVec.getLsbD_extractLsb', hi, BitVec.getLsbD_append, h1, (by omega : k + i - m = k - m + i), if_false,
    decide_true, Bool.true_and]

theorem extract_all {n : Nat} (a : BitVec n) : a.extractLsb' 0 n = a := by
  apply BitVec.eq_of_getLsbD_eq
  intro i hi
  simp [hi]

/-! ## Opcodes -/

@[simp] theorem opcodeOf_code (o : Opcode) : opcodeOf o.code = some o := by cases o <;> decide

theorem code_of_opcodeOf : ∀ (b : BitVec 8) (o : Opcode), opcodeOf b = some o → o.code = b := by
  intro b o h
  have := List.find?_some h
  simpa using this

/-- R74: the reserved opcodes are those no row of R73 names. -/
theorem opcodeOf_eq_none_iff : ∀ b : BitVec 8, opcodeOf b = none ↔ definedOpcode b = false := by decide

@[simp] theorem ofBits_bits (m : Mode) : Mode.ofBits m.bits = m := by cases m <;> decide

/-! ## Fields of the four command formats -/

theorem append_assoc3 {a b c : Nat} (x : BitVec a) (y : BitVec b) (z : BitVec c) :
    (x ++ y ++ z).toNat = (x ++ (y ++ z)).toNat := by
  simp only [BitVec.toNat_append, Nat.shiftLeft_or_distrib, ← Nat.shiftLeft_add, Nat.or_assoc]

/-- R66: whatever CMD[23:0] holds. -/
@[simp] theorem cmdOpc_append (c : BitVec 8) (r : BitVec 24) : cmdOpc (c ++ r) = c := extract_append_high c r

/-- R68: the fields of a format L word. -/
theorem formatL_fields (c : BitVec 8) (k : Byte) (l : BitVec 16) :
    cmdOpc (c ++ k ++ l) = c ∧ cmdMask (c ++ k ++ l) = k ∧ cmdLine (c ++ k ++ l) = l := by
  refine ⟨?_, ?_, ?_⟩
  · have : (c ++ k ++ l : BitVec 32) = (c ++ (k ++ l : BitVec 24) : BitVec 32) :=
      BitVec.eq_of_toNat_eq (append_assoc3 c k l)
    rw [this]
    exact cmdOpc_append _ _
  · exact (extract_append_skip (n := 16) (m := 16) (k := 16) (j := 8) (c ++ k) l (le_refl _)).trans
      ((extract_append_low c k (by omega)).trans (extract_all k))
  · exact (extract_append_low (n := 16) (c ++ k) l (by omega)).trans (extract_all l)

/-- R69: the fields of a format P word, whatever its ignored bits hold. -/
theorem formatP_fields (c : BitVec 8) (hi : BitVec 6) (m : BitVec 2) (mid : BitVec 8) (d8 : Byte) :
    cmdOpc (c ++ hi ++ m ++ mid ++ d8) = c ∧ cmdMode (c ++ hi ++ m ++ mid ++ d8) = Mode.ofBits m ∧
      cmdD8 (c ++ hi ++ m ++ mid ++ d8) = d8 := by
  refine ⟨?_, ?_, ?_⟩
  · have : (c ++ hi ++ m ++ mid ++ d8 : BitVec 32) = (c ++ (hi ++ m ++ mid ++ d8 : BitVec 24) : BitVec 32) := by
      apply BitVec.eq_of_toNat_eq
      show (c ++ hi ++ m ++ mid ++ d8).toNat = (c ++ (hi ++ m ++ mid ++ d8)).toNat
      simp only [BitVec.toNat_append, Nat.shiftLeft_or_distrib, ← Nat.shiftLeft_add, Nat.or_assoc]
    rw [this]
    exact cmdOpc_append _ _
  · unfold cmdMode
    congr 1
    exact (extract_append_skip (n := 24) (m := 8) (k := 16) (j := 2) (c ++ hi ++ m ++ mid) d8 (by omega)).trans
      ((extract_append_skip (n := 16) (m := 8) (k := 8) (j := 2) (c ++ hi ++ m) mid (by omega)).trans
        ((extract_append_low (n := 14) (m := 2) (k := 0) (j := 2) (c ++ hi) m (by omega)).trans (extract_all m)))
  · exact (extract_append_low (n := 24) (c ++ hi ++ m ++ mid) d8 (by omega)).trans (extract_all d8)

/-- R69, D46: a PUTPIX word split at D8[0]. -/
theorem formatP_v (c : BitVec 8) (hi : BitVec 6) (m : BitVec 2) (mid : BitVec 8) (v7 : BitVec 7) (v : BitVec 1) :
    cmdOpc (c ++ hi ++ m ++ mid ++ v7 ++ v) = c ∧ cmdMode (c ++ hi ++ m ++ mid ++ v7 ++ v) = Mode.ofBits m ∧
      cmdV (c ++ hi ++ m ++ mid ++ v7 ++ v) = v := by
  have e : (c ++ hi ++ m ++ mid ++ v7 ++ v : BitVec 32) = (c ++ hi ++ m ++ mid ++ (v7 ++ v : BitVec 8) : BitVec 32) := by
    apply BitVec.eq_of_toNat_eq
    show (c ++ hi ++ m ++ mid ++ v7 ++ v).toNat = (c ++ hi ++ m ++ mid ++ (v7 ++ v)).toNat
    simp only [BitVec.toNat_append, Nat.shiftLeft_or_distrib, ← Nat.shiftLeft_add, Nat.or_assoc]
  refine ⟨?_, ?_, ?_⟩
  · rw [e]
    exact (formatP_fields ..).1
  · rw [e]
    exact (formatP_fields ..).2.1
  · exact (extract_append_low (n := 31) (m := 1) (c ++ hi ++ m ++ mid ++ v7) v (by omega)).trans (extract_all v)

/-- R70: the fields of a format F word. -/
theorem formatF_fields (c : BitVec 8) (f : BitVec 16) (d8 : Byte) :
    cmdOpc (c ++ f ++ d8) = c ∧ cmdD8 (c ++ f ++ d8) = d8 := by
  refine ⟨?_, (extract_append_low (n := 24) (c ++ f) d8 (by omega)).trans (extract_all d8)⟩
  have : (c ++ f ++ d8 : BitVec 32) = (c ++ (f ++ d8 : BitVec 24) : BitVec 32) :=
    BitVec.eq_of_toNat_eq (append_assoc3 c f d8)
  rw [this]
  exact cmdOpc_append _ _

/-! ## Transaction classes -/

/-- BT split into its three class bits and ADDR[14:0]. -/
theorem append_eq_mkBt (a : BitVec 3) (off : BitVec 15) :
    (a ++ off : BitVec 18) = mkBt (a.getLsbD 2) (a.getLsbD 1) (a.getLsbD 0) off := by
  apply BitVec.eq_of_getLsbD_eq
  intro i hi
  rw [getLsbD_mkBt]
  refine (BitVec.getLsbD_append (x := a) (y := off)).trans ?_
  by_cases h : i < 15
  · simp [h]
  · simp only [h, if_false]
    revert a
    rcases (by omega : i = 15 ∨ i = 16 ∨ i = 17) with h | h | h <;> subst h <;> decide

/-- R65: a WR_CMD word carries a command. -/
theorem decodeBus_wrCmd (d : Word) : decodeBus ⟨0x38000#18, d⟩ = .wrCmd d := by
  rw [show 0x38000#18 = mkBt true true true 0#15 by decide]
  simp [decodeBus]

end Sys2Proof
end

