-- ==== Sys2Proof/Laws/State.lean ====
section
/-! SUPPORT. What each named update of the state does to each field: one lemma per field per update. -/

namespace Sys2Proof.Machine

/-! ## fbWrite -/

section
variable (a : Nat) (v : Byte) (s : State)

@[simp] theorem fbWrite_xy : (fbWrite a v s).xy = s.xy := rfl
@[simp] theorem fbWrite_data : (fbWrite a v s).data = s.data := rfl
@[simp] theorem fbWrite_result : (fbWrite a v s).result = s.result := rfl
@[simp] theorem fbWrite_enabled : (fbWrite a v s).enabled = s.enabled := rfl
@[simp] theorem fbWrite_running : (fbWrite a v s).running = s.running := rfl
@[simp] theorem fbWrite_line : (fbWrite a v s).line = s.line := rfl
@[simp] theorem fbWrite_bufsel : (fbWrite a v s).bufsel = s.bufsel := rfl
@[simp] theorem fbWrite_vtarget : (fbWrite a v s).vtarget = s.vtarget := rfl
@[simp] theorem fbWrite_phase : (fbWrite a v s).phase = s.phase := rfl
@[simp] theorem fbWrite_tickPending : (fbWrite a v s).tickPending = s.tickPending := rfl
@[simp] theorem fbWrite_hsyncN : (fbWrite a v s).hsyncN = s.hsyncN := rfl
@[simp] theorem fbWrite_vsyncN : (fbWrite a v s).vsyncN = s.vsyncN := rfl
@[simp] theorem fbWrite_color : (fbWrite a v s).color = s.color := rfl
@[simp] theorem fbWrite_fb : (fbWrite a v s).fb = Memory.insert s.fb a v := rfl
@[simp] theorem fbWrite_lpt : (fbWrite a v s).lpt = s.lpt := rfl
@[simp] theorem fbWrite_serBusy : (fbWrite a v s).serBusy = s.serBusy := rfl
@[simp] theorem fbWrite_serLive : (fbWrite a v s).serLive = s.serLive := rfl
@[simp] theorem fbWrite_serBuf : (fbWrite a v s).serBuf = s.serBuf := rfl
@[simp] theorem fbWrite_hop : (fbWrite a v s).hop = s.hop := rfl
@[simp] theorem fbWrite_trace : (fbWrite a v s).trace = s.trace := rfl
@[simp] theorem fbWrite_rdata : (fbWrite a v s).rdata = s.rdata := rfl
@[simp] theorem fbWrite_lpe : (fbWrite a v s).lpe = s.lpe := rfl
@[simp] theorem fbWrite_bus : (fbWrite a v s).bus = s.bus := rfl
@[simp] theorem fbWrite_sched : (fbWrite a v s).sched = s.sched := rfl
@[simp] theorem fbWrite_turn : (fbWrite a v s).turn = s.turn := rfl
@[simp] theorem fbWrite_fbEpoch : (fbWrite a v s).fbEpoch = s.fbEpoch := rfl

end

/-! ## lptWrite -/

section
variable (l : Nat) (v : Byte) (s : State)

@[simp] theorem lptWrite_xy : (lptWrite l v s).xy = s.xy := rfl
@[simp] theorem lptWrite_data : (lptWrite l v s).data = s.data := rfl
@[simp] theorem lptWrite_result : (lptWrite l v s).result = s.result := rfl
@[simp] theorem lptWrite_enabled : (lptWrite l v s).enabled = s.enabled := rfl
@[simp] theorem lptWrite_running : (lptWrite l v s).running = s.running := rfl
@[simp] theorem lptWrite_line : (lptWrite l v s).line = s.line := rfl
@[simp] theorem lptWrite_bufsel : (lptWrite l v s).bufsel = s.bufsel := rfl
@[simp] theorem lptWrite_vtarget : (lptWrite l v s).vtarget = s.vtarget := rfl
@[simp] theorem lptWrite_phase : (lptWrite l v s).phase = s.phase := rfl
@[simp] theorem lptWrite_tickPending : (lptWrite l v s).tickPending = s.tickPending := rfl
@[simp] theorem lptWrite_hsyncN : (lptWrite l v s).hsyncN = s.hsyncN := rfl
@[simp] theorem lptWrite_vsyncN : (lptWrite l v s).vsyncN = s.vsyncN := rfl
@[simp] theorem lptWrite_color : (lptWrite l v s).color = s.color := rfl
@[simp] theorem lptWrite_fb : (lptWrite l v s).fb = s.fb := rfl
@[simp] theorem lptWrite_lpt : (lptWrite l v s).lpt = if v = 0x00#8 then Memory.erase s.lpt l else Memory.insert s.lpt l v := rfl
@[simp] theorem lptWrite_serBusy : (lptWrite l v s).serBusy = s.serBusy := rfl
@[simp] theorem lptWrite_serLive : (lptWrite l v s).serLive = s.serLive := rfl
@[simp] theorem lptWrite_serBuf : (lptWrite l v s).serBuf = s.serBuf := rfl
@[simp] theorem lptWrite_hop : (lptWrite l v s).hop = s.hop := rfl
@[simp] theorem lptWrite_trace : (lptWrite l v s).trace = s.trace := rfl
@[simp] theorem lptWrite_rdata : (lptWrite l v s).rdata = s.rdata := rfl
@[simp] theorem lptWrite_lpe : (lptWrite l v s).lpe = s.lpe := rfl
@[simp] theorem lptWrite_bus : (lptWrite l v s).bus = s.bus := rfl
@[simp] theorem lptWrite_sched : (lptWrite l v s).sched = s.sched := rfl
@[simp] theorem lptWrite_turn : (lptWrite l v s).turn = s.turn := rfl
@[simp] theorem lptWrite_fbEpoch : (lptWrite l v s).fbEpoch = s.fbEpoch := rfl

end

/-! ## emit -/

section
variable (e : Event) (s : State)

@[simp] theorem emit_xy : (emit e s).xy = s.xy := rfl
@[simp] theorem emit_data : (emit e s).data = s.data := rfl
@[simp] theorem emit_result : (emit e s).result = s.result := rfl
@[simp] theorem emit_enabled : (emit e s).enabled = s.enabled := rfl
@[simp] theorem emit_running : (emit e s).running = s.running := rfl
@[simp] theorem emit_line : (emit e s).line = s.line := rfl
@[simp] theorem emit_bufsel : (emit e s).bufsel = s.bufsel := rfl
@[simp] theorem emit_vtarget : (emit e s).vtarget = s.vtarget := rfl
@[simp] theorem emit_phase : (emit e s).phase = s.phase := rfl
@[simp] theorem emit_tickPending : (emit e s).tickPending = s.tickPending := rfl
@[simp] theorem emit_hsyncN : (emit e s).hsyncN = s.hsyncN := rfl
@[simp] theorem emit_vsyncN : (emit e s).vsyncN = s.vsyncN := rfl
@[simp] theorem emit_color : (emit e s).color = s.color := rfl
@[simp] theorem emit_fb : (emit e s).fb = s.fb := rfl
@[simp] theorem emit_lpt : (emit e s).lpt = s.lpt := rfl
@[simp] theorem emit_serBusy : (emit e s).serBusy = s.serBusy := rfl
@[simp] theorem emit_serLive : (emit e s).serLive = s.serLive := rfl
@[simp] theorem emit_serBuf : (emit e s).serBuf = s.serBuf := rfl
@[simp] theorem emit_hop : (emit e s).hop = s.hop := rfl
@[simp] theorem emit_trace : (emit e s).trace = s.trace ++ [e] := rfl
@[simp] theorem emit_rdata : (emit e s).rdata = s.rdata := rfl
@[simp] theorem emit_lpe : (emit e s).lpe = s.lpe := rfl
@[simp] theorem emit_bus : (emit e s).bus = s.bus := rfl
@[simp] theorem emit_sched : (emit e s).sched = s.sched := rfl
@[simp] theorem emit_turn : (emit e s).turn = s.turn := rfl
@[simp] theorem emit_fbEpoch : (emit e s).fbEpoch = s.fbEpoch := rfl

end

/-! ## respond -/

section
variable (v : Word) (s : State)

@[simp] theorem respond_xy : (respond v s).xy = s.xy := rfl
@[simp] theorem respond_data : (respond v s).data = s.data := rfl
@[simp] theorem respond_result : (respond v s).result = s.result := rfl
@[simp] theorem respond_enabled : (respond v s).enabled = s.enabled := rfl
@[simp] theorem respond_running : (respond v s).running = s.running := rfl
@[simp] theorem respond_line : (respond v s).line = s.line := rfl
@[simp] theorem respond_bufsel : (respond v s).bufsel = s.bufsel := rfl
@[simp] theorem respond_vtarget : (respond v s).vtarget = s.vtarget := rfl
@[simp] theorem respond_phase : (respond v s).phase = s.phase := rfl
@[simp] theorem respond_tickPending : (respond v s).tickPending = s.tickPending := rfl
@[simp] theorem respond_hsyncN : (respond v s).hsyncN = s.hsyncN := rfl
@[simp] theorem respond_vsyncN : (respond v s).vsyncN = s.vsyncN := rfl
@[simp] theorem respond_color : (respond v s).color = s.color := rfl
@[simp] theorem respond_fb : (respond v s).fb = s.fb := rfl
@[simp] theorem respond_lpt : (respond v s).lpt = s.lpt := rfl
@[simp] theorem respond_serBusy : (respond v s).serBusy = s.serBusy := rfl
@[simp] theorem respond_serLive : (respond v s).serLive = s.serLive := rfl
@[simp] theorem respond_serBuf : (respond v s).serBuf = s.serBuf := rfl
@[simp] theorem respond_hop : (respond v s).hop = s.hop := rfl
@[simp] theorem respond_trace : (respond v s).trace = s.trace := rfl
@[simp] theorem respond_rdata : (respond v s).rdata = v := rfl
@[simp] theorem respond_lpe : (respond v s).lpe = s.lpe := rfl
@[simp] theorem respond_bus : (respond v s).bus = s.bus := rfl
@[simp] theorem respond_sched : (respond v s).sched = s.sched := rfl
@[simp] theorem respond_turn : (respond v s).turn = s.turn := rfl
@[simp] theorem respond_fbEpoch : (respond v s).fbEpoch = s.fbEpoch := rfl

end

/-! ## setResult -/

section
variable (v : Word) (s : State)

@[simp] theorem setResult_xy : (setResult v s).xy = s.xy := rfl
@[simp] theorem setResult_data : (setResult v s).data = s.data := rfl
@[simp] theorem setResult_result : (setResult v s).result = v := rfl
@[simp] theorem setResult_enabled : (setResult v s).enabled = s.enabled := rfl
@[simp] theorem setResult_running : (setResult v s).running = s.running := rfl
@[simp] theorem setResult_line : (setResult v s).line = s.line := rfl
@[simp] theorem setResult_bufsel : (setResult v s).bufsel = s.bufsel := rfl
@[simp] theorem setResult_vtarget : (setResult v s).vtarget = s.vtarget := rfl
@[simp] theorem setResult_phase : (setResult v s).phase = s.phase := rfl
@[simp] theorem setResult_tickPending : (setResult v s).tickPending = s.tickPending := rfl
@[simp] theorem setResult_hsyncN : (setResult v s).hsyncN = s.hsyncN := rfl
@[simp] theorem setResult_vsyncN : (setResult v s).vsyncN = s.vsyncN := rfl
@[simp] theorem setResult_color : (setResult v s).color = s.color := rfl
@[simp] theorem setResult_fb : (setResult v s).fb = s.fb := rfl
@[simp] theorem setResult_lpt : (setResult v s).lpt = s.lpt := rfl
@[simp] theorem setResult_serBusy : (setResult v s).serBusy = s.serBusy := rfl
@[simp] theorem setResult_serLive : (setResult v s).serLive = s.serLive := rfl
@[simp] theorem setResult_serBuf : (setResult v s).serBuf = s.serBuf := rfl
@[simp] theorem setResult_hop : (setResult v s).hop = s.hop := rfl
@[simp] theorem setResult_trace : (setResult v s).trace = s.trace := rfl
@[simp] theorem setResult_rdata : (setResult v s).rdata = s.rdata := rfl
@[simp] theorem setResult_lpe : (setResult v s).lpe = s.lpe := rfl
@[simp] theorem setResult_bus : (setResult v s).bus = s.bus := rfl
@[simp] theorem setResult_sched : (setResult v s).sched = s.sched := rfl
@[simp] theorem setResult_turn : (setResult v s).turn = s.turn := rfl
@[simp] theorem setResult_fbEpoch : (setResult v s).fbEpoch = s.fbEpoch := rfl

end

/-! ## setHop -/

section
variable (h : Hop) (s : State)

@[simp] theorem setHop_xy : (setHop h s).xy = s.xy := rfl
@[simp] theorem setHop_data : (setHop h s).data = s.data := rfl
@[simp] theorem setHop_result : (setHop h s).result = s.result := rfl
@[simp] theorem setHop_enabled : (setHop h s).enabled = s.enabled := rfl
@[simp] theorem setHop_running : (setHop h s).running = s.running := rfl
@[simp] theorem setHop_line : (setHop h s).line = s.line := rfl
@[simp] theorem setHop_bufsel : (setHop h s).bufsel = s.bufsel := rfl
@[simp] theorem setHop_vtarget : (setHop h s).vtarget = s.vtarget := rfl
@[simp] theorem setHop_phase : (setHop h s).phase = s.phase := rfl
@[simp] theorem setHop_tickPending : (setHop h s).tickPending = s.tickPending := rfl
@[simp] theorem setHop_hsyncN : (setHop h s).hsyncN = s.hsyncN := rfl
@[simp] theorem setHop_vsyncN : (setHop h s).vsyncN = s.vsyncN := rfl
@[simp] theorem setHop_color : (setHop h s).color = s.color := rfl
@[simp] theorem setHop_fb : (setHop h s).fb = s.fb := rfl
@[simp] theorem setHop_lpt : (setHop h s).lpt = s.lpt := rfl
@[simp] theorem setHop_serBusy : (setHop h s).serBusy = s.serBusy := rfl
@[simp] theorem setHop_serLive : (setHop h s).serLive = s.serLive := rfl
@[simp] theorem setHop_serBuf : (setHop h s).serBuf = s.serBuf := rfl
@[simp] theorem setHop_hop : (setHop h s).hop = h := rfl
@[simp] theorem setHop_trace : (setHop h s).trace = s.trace := rfl
@[simp] theorem setHop_rdata : (setHop h s).rdata = s.rdata := rfl
@[simp] theorem setHop_lpe : (setHop h s).lpe = s.lpe := rfl
@[simp] theorem setHop_bus : (setHop h s).bus = s.bus := rfl
@[simp] theorem setHop_sched : (setHop h s).sched = s.sched := rfl
@[simp] theorem setHop_turn : (setHop h s).turn = s.turn := rfl
@[simp] theorem setHop_fbEpoch : (setHop h s).fbEpoch = s.fbEpoch := rfl

end

end Sys2Proof.Machine
end

