-- ==== Sys2Proof/Laws/Memory.lean ====
section
/-! SUPPORT. The laws of the sparse byte tables, of the framebuffer and of the line-properties table over them: read after
write, and that every operation keeps the canonical form. -/

namespace Sys2Proof.Machine

namespace Memory

theorem lookup_insert (m : List Host.Cell) (a b : Nat) (v : Byte) :
    lookup (insert m a v) b = if b = a then some v else lookup m b := by
  induction m with
  | nil => rfl
  | cons c m ih =>
    obtain ⟨k, x⟩ := c
    by_cases h1 : a < k
    · simp [insert, lookup, h1]
    · by_cases h2 : a = k
      · subst h2
        by_cases h : b = a <;> simp [insert, lookup, h]
      · simp only [insert, h1, h2, if_false, lookup, ih]
        by_cases h : b = a
        · simp [h, h2]
        · simp [h]

theorem lookup_erase (m : List Host.Cell) (a b : Nat) :
    lookup (erase m a) b = if b = a then none else lookup m b := by
  induction m with
  | nil => simp [erase, lookup]
  | cons c m ih =>
    obtain ⟨k, x⟩ := c
    by_cases hk : k = a
    · subst hk
      have : erase ((k, x) :: m) k = erase m k := by simp [erase]
      rw [this, ih]
      by_cases h : b = k <;> simp [lookup, h]
    · have : erase ((k, x) :: m) a = (k, x) :: erase m a := by simp [erase, hk]
      simp only [this, lookup, ih]
      by_cases h : b = a
      · simp [h, Ne.symm hk]
      · simp [h]

theorem mem_insert {m : List Host.Cell} {a : Nat} {v : Byte} {c : Host.Cell} (h : c ∈ insert m a v) :
    c = (a, v) ∨ c ∈ m := by
  induction m with
  | nil => simpa [insert] using h
  | cons d m ih =>
    simp only [insert] at h
    split_ifs at h <;> simp only [List.mem_cons] at h ⊢ <;> tauto

theorem sorted_insert {bound : Nat} {m : List Host.Cell} {a : Nat} {v : Byte} (hm : sorted bound m) (ha : a < bound) :
    sorted bound (insert m a v) := by
  refine ⟨?_, fun c hc => ?_⟩
  · obtain ⟨hp, -⟩ := hm
    induction m with
    | nil => simp [insert]
    | cons d m ih =>
      obtain ⟨hd, hp⟩ := List.pairwise_cons.1 hp
      simp only [insert]
      split_ifs with h1 h2
      · refine List.pairwise_cons.2 ⟨fun c hc => ?_, List.pairwise_cons.2 ⟨hd, hp⟩⟩
        rcases List.mem_cons.1 hc with rfl | hc
        · exact h1
        · exact h1.trans (hd c hc)
      · exact List.pairwise_cons.2 ⟨fun c hc => h2 ▸ hd c hc, hp⟩
      · refine List.pairwise_cons.2 ⟨fun c hc => ?_, ih hp⟩
        rcases mem_insert hc with rfl | hc
        · show d.1 < a
          omega
        · exact hd c hc
  · rcases mem_insert hc with rfl | hc
    · exact ha
    · exact hm.2 c hc

theorem sorted_erase {bound : Nat} {m : List Host.Cell} (a : Nat) (hm : sorted bound m) : sorted bound (erase m a) :=
  ⟨hm.1.sublist List.filter_sublist, fun c hc => hm.2 c (List.mem_of_mem_filter hc)⟩

theorem lookup_of_le {bound : Nat} {m : List Host.Cell} {a : Nat} (hm : sorted bound m) (ha : bound ≤ a) :
    lookup m a = none := by
  obtain ⟨-, hb⟩ := hm
  induction m with
  | nil => rfl
  | cons d m ih =>
    have h1 : d.1 < bound := hb d (List.mem_cons_self ..)
    simp only [lookup]
    rw [if_neg (by omega : ¬a = d.1)]
    exact ih (fun c hc => hb c (List.mem_cons_of_mem _ hc))

end Memory

/-! ## The framebuffer -/

/-- R57: a read returns the last value written. -/
@[simp] theorem fbRead_fbWrite (s : State) (a b : Nat) (v : Byte) :
    fbRead (fbWrite a v s) b = if b = a then v else fbRead s b := by
  by_cases h : b = a <;> simp [fbRead, Memory.lookup_insert, h]

/-- A read looks at the framebuffer and at the number of resets alone. -/
theorem fbRead_congr {s t : State} (h : t.fb = s.fb) (he : t.fbEpoch = s.fbEpoch) (a : Nat) : fbRead t a = fbRead s a := by
  simp [fbRead, h, he]

theorem wf_fbWrite {s : State} {a : Nat} {v : Byte} (h : Memory.wf s.fb) (ha : a < Config.fbBytes) :
    Memory.wf (fbWrite a v s).fb :=
  Memory.sorted_insert h ha

/-! ## The line-properties table -/

/-- R57: a read returns the last value written. -/
@[simp] theorem lptRead_lptWrite (s : State) (l k : Nat) (v : Byte) :
    lptRead (lptWrite l v s) k = if k = l then v else lptRead s k := by
  by_cases hv : v = 0#8 <;> by_cases h : k = l <;>
    simp [lptRead, hv, h, Memory.lookup_insert, Memory.lookup_erase]

theorem lptRead_congr {s t : State} (h : t.lpt = s.lpt) (l : Nat) : lptRead t l = lptRead s l := by
  simp [lptRead, h]

theorem lptWf_lptWrite {s : State} {l : Nat} {v : Byte} (h : Memory.lptWf s.lpt) (hl : l < Config.visibleLines) :
    Memory.lptWf (lptWrite l v s).lpt := by
  rw [lptWrite_lpt]
  split_ifs with hv
  · exact ⟨Memory.sorted_erase l h.1, fun c hc => h.2 c (List.mem_of_mem_filter hc)⟩
  · refine ⟨Memory.sorted_insert h.1 hl, fun c hc => ?_⟩
    rcases Memory.mem_insert hc with rfl | hc
    · exact hv
    · exact h.2 c hc

/-! ## Reset -/

/-- R150: both tables are in canonical form right after reset. -/
theorem wf_reset : Memory.wf State.reset.fb ∧ Memory.lptWf State.reset.lpt := by decide

end Sys2Proof.Machine
end

