-- ==== Sys2Proof/Laws/Operands.lean ====
section
/-! SUPPORT. The operands' ranges with their bounds written out, one lemma per function of Machine/Operands.lean. -/

namespace Sys2Proof.Machine

/-- R111, bit granularity. -/
theorem pixelIndex_eq (x y : Int) : pixelIndex x y =
    if 0 ≤ x ∧ x < 512 ∧ 0 ≤ y ∧ y < 480 then some (64 * y.toNat + x.toNat / 8, 7 - x.toNat % 8) else none := rfl

/-- R111, byte granularity. -/
theorem byteIndex_eq (x y : Int) : byteIndex x y =
    if 0 ≤ x ∧ x < 64 ∧ 0 ≤ y ∧ y < 480 then some (64 * y.toNat + 1 * x.toNat) else none := rfl

/-- R111, word granularity. -/
theorem wordIndex_eq (x y : Int) : wordIndex x y =
    if 0 ≤ x ∧ x < 16 ∧ 0 ≤ y ∧ y < 480 then some (64 * y.toNat + 4 * x.toNat) else none := rfl

/-- R106, R108. -/
theorem propIndex_eq (s : State) (l : BitVec 16) : propIndex s l =
    if s.lpe = true ∧ 0 ≤ s16 l ∧ s16 l < 480 then some (s16 l).toNat else none := rfl

/-- R112: SET over all lanes replaces the byte. -/
theorem comb_set_all (o n : Byte) : comb .set o n 0xFF#8 = n := by
  rw [comb, show ~~~0xFF#8 = 0#8 by decide, show (0xFF#8 : Byte) = BitVec.allOnes 8 by decide, BitVec.and_zero,
    BitVec.zero_or, BitVec.and_allOnes]

end Sys2Proof.Machine
end

