-- ==== Sys2Proof/Laws/Hop.lean ====
section
/-! SUPPORT. The operation in flight: what its next steps do, all at once. A run of `k` steps is described by how many bytes or
entries it has reached, so that no later proof unfolds `hopStep`. -/

namespace Sys2Proof.Machine

open Sys2Proof.Safety

/-- R112: the byte a read-modify-write stores. -/
theorem combineByte_eq (mode : Mode) (a : Nat) (n k : Byte) (s : State) :
    combineByte mode a n k s = fbWrite a (comb mode (fbRead s a) n k) s := by
  unfold combineByte
  split_ifs with h
  · rw [h.1, h.2, comb_set_all]
  · rfl

theorem wf_combineByte {mode : Mode} {a : Nat} {n k : Byte} {s : State} (h : Memory.wf s.fb) (ha : a < Config.fbBytes) :
    Memory.wf (combineByte mode a n k s).fb :=
  wf_fbWrite h ha

/-! ## Frames -/

theorem sameButFbHop_trans {u t s : State} (h1 : sameButFbHop u t) (h2 : sameButFbHop t s) : sameButFbHop u s := by
  show { { u with fb := t.fb, hop := t.hop } with fb := s.fb, hop := s.hop } = s
  rw [h1]; exact h2

theorem sameButLptHop_trans {u t s : State} (h1 : sameButLptHop u t) (h2 : sameButLptHop t s) : sameButLptHop u s := by
  show { { u with lpt := t.lpt, hop := t.hop } with lpt := s.lpt, hop := s.hop } = s
  rw [h1]; exact h2

theorem sameButFbHop_setHop (h : Hop) (s : State) : sameButFbHop (setHop h s) s := rfl
theorem sameButLptHop_setHop (h : Hop) (s : State) : sameButLptHop (setHop h s) s := rfl

theorem fbRead_setHop (h : Hop) (s : State) (a : Nat) : fbRead (setHop h s) a = fbRead s a := rfl
theorem lptRead_setHop (h : Hop) (s : State) (l : Nat) : lptRead (setHop h s) l = lptRead s l := rfl

/-! ## One step -/

theorem hopStep_none {s : State} (h : s.hop = .none) : hopStep s = s := by simp [hopStep, h]

theorem hopStep_bytes (mode : Mode) (a : Nat) (b : Byte) (rest : List Byte) (s : State) :
    hopStep (setHop (.bytes mode a (b :: rest)) s) =
      setHop (if rest.isEmpty then .none else .bytes mode (a + 1) rest) (combineByte mode a b 0xFF#8 s) := rfl

theorem hopStep_fill (a : Nat) (d8 : Byte) (s : State) :
    hopStep (setHop (.fill a d8) s) =
      setHop (if a + 1 < Config.fbBytes then .fill (a + 1) d8 else .none) (fbWrite a d8 s) := rfl

theorem hopStep_props (l stop : Nat) (mask : Byte) (s : State) :
    hopStep (setHop (.props l stop mask) s) =
      setHop (if l + 1 < stop then .props (l + 1) stop mask else .none) (lptWrite l mask s) := rfl

theorem hopRun_succ (k : Nat) (s : State) : hopRun (k + 1) s = hopRun k (hopStep s) := rfl

theorem beginHop_run (k : Nat) (h : Hop) (s : State) : hopRun k (beginHop h s) = hopRun (k + 1) (setHop h s) := rfl

/-! ## Several steps -/

/-- R51, R52, R115, R127: `k` byte steps of a list of bytes: the first `k` bytes are combined, the rest are as before. -/
theorem hopRun_bytes (mode : Mode) (k a : Nat) (rest : List Byte) (s : State) (hk : k ≤ rest.length) (hr : 0 < k) :
    (hopRun k (setHop (.bytes mode a rest) s)).hop =
        (if k = rest.length then .none else .bytes mode (a + k) (rest.drop k)) ∧
      sameButFbHop (hopRun k (setHop (.bytes mode a rest) s)) s ∧
      ∀ b, fbRead (hopRun k (setHop (.bytes mode a rest) s)) b =
        if a ≤ b ∧ b < a + k then comb mode (fbRead s b) (rest.getD (b - a) 0) 0xFF#8 else fbRead s b := by
  induction k generalizing a rest s with
  | zero => omega
  | succ k ih =>
    match rest with
    | [] => simp at hk
    | b :: rest =>
      rw [hopRun_succ, hopStep_bytes]
      have hk' : k ≤ rest.length := by simpa using hk
      have hread : ∀ c, fbRead (combineByte mode a b 0xFF#8 s) c =
          if c = a then comb mode (fbRead s a) b 0xFF#8 else fbRead s c := fun c => by simp [combineByte_eq]
      rcases Nat.eq_zero_or_pos k with rfl | hpos
      · refine ⟨?_, rfl, fun c => ?_⟩
        · cases rest <;> simp [hopRun, setHop]
        · show fbRead (combineByte mode a b 0xFF#8 s) c = _
          rw [hread]
          by_cases h : c = a
          · subst h; simp
          · rw [if_neg h, if_neg (by omega)]
      · have hne : rest.isEmpty = false := by
          cases rest with
          | nil => simp at hk'; omega
          | cons => rfl
        rw [hne]
        obtain ⟨h1, h2, h3⟩ := ih (a + 1) rest (combineByte mode a b 0xFF#8 s) hk' hpos
        simp only [Bool.false_eq_true, if_false]
        refine ⟨?_, sameButFbHop_trans h2 rfl, fun c => ?_⟩
        · rw [h1]
          simp only [List.length_cons, List.drop_succ_cons, Nat.add_right_cancel_iff]
          rw [show a + 1 + k = a + (k + 1) by omega]
        · rw [h3, hread]
          rcases Nat.lt_trichotomy c a with h | h | h
          · rw [if_neg (by omega), if_neg (by omega), if_neg (by omega)]
          · subst h
            rw [if_neg (by omega), if_pos rfl, if_pos (by omega)]
            simp
          · have hg : (b :: rest).getD (c - a) 0 = rest.getD (c - (a + 1)) 0 := by
              obtain ⟨d, rfl⟩ : ∃ d, c = a + 1 + d := ⟨c - (a + 1), by omega⟩
              rw [show a + 1 + d - a = d + 1 by omega, show a + 1 + d - (a + 1) = d by omega]
              simp
            rw [if_neg (by omega : ¬c = a), hg]
            by_cases hc : c < a + 1 + k
            · rw [if_pos (by omega), if_pos (by omega)]
            · rw [if_neg (by omega), if_neg (by omega)]

/-- R119: `k` byte steps of a FILL from byte `a`. -/
theorem hopRun_fill (k a : Nat) (d8 : Byte) (s : State) (hk : a + k ≤ Config.fbBytes) (hr : 0 < k) :
    (hopRun k (setHop (.fill a d8) s)).hop = (if a + k = Config.fbBytes then .none else .fill (a + k) d8) ∧
      sameButFbHop (hopRun k (setHop (.fill a d8) s)) s ∧
      ∀ b, fbRead (hopRun k (setHop (.fill a d8) s)) b = if a ≤ b ∧ b < a + k then d8 else fbRead s b := by
  induction k generalizing a s with
  | zero => omega
  | succ k ih =>
    rw [hopRun_succ, hopStep_fill]
    rcases Nat.eq_zero_or_pos k with rfl | hpos
    · refine ⟨?_, rfl, fun c => ?_⟩
      · show (if a + 1 < Config.fbBytes then Hop.fill (a + 1) d8 else Hop.none) = _
        split_ifs <;> first | rfl | omega
      · show fbRead (fbWrite a d8 s) c = _
        rw [fbRead_fbWrite]
        by_cases h : c = a
        · rw [if_pos h, if_pos (by omega)]
        · rw [if_neg h, if_neg (by omega)]
    · rw [if_pos (by omega)]
      obtain ⟨h1, h2, h3⟩ := ih (a + 1) (fbWrite a d8 s) (by omega) hpos
      refine ⟨?_, sameButFbHop_trans h2 rfl, fun c => ?_⟩
      · rw [h1, show a + 1 + k = a + (k + 1) by omega]
      · rw [h3, fbRead_fbWrite]
        by_cases h : c = a
        · rw [if_neg (by omega), if_pos h, if_pos (by omega)]
        · rw [if_neg h]
          by_cases hc : a + 1 ≤ c ∧ c < a + 1 + k
          · rw [if_pos hc, if_pos (by omega)]
          · rw [if_neg hc, if_neg (by omega)]

/-- R107: `k` entry steps of a SETPROPS from line `l`. -/
theorem hopRun_props (k l stop : Nat) (mask : Byte) (s : State) (hk : l + k ≤ stop) (hr : 0 < k) :
    (hopRun k (setHop (.props l stop mask) s)).hop = (if l + k = stop then .none else .props (l + k) stop mask) ∧
      sameButLptHop (hopRun k (setHop (.props l stop mask) s)) s ∧
      ∀ m, lptRead (hopRun k (setHop (.props l stop mask) s)) m =
        if l ≤ m ∧ m < l + k then mask else lptRead s m := by
  induction k generalizing l s with
  | zero => omega
  | succ k ih =>
    rw [hopRun_succ, hopStep_props]
    rcases Nat.eq_zero_or_pos k with rfl | hpos
    · refine ⟨?_, rfl, fun c => ?_⟩
      · show (if l + 1 < stop then Hop.props (l + 1) stop mask else Hop.none) = _
        split_ifs <;> first | rfl | omega
      · show lptRead (lptWrite l mask s) c = _
        rw [lptRead_lptWrite]
        by_cases h : c = l
        · rw [if_pos h, if_pos (by omega)]
        · rw [if_neg h, if_neg (by omega)]
    · rw [if_pos (by omega)]
      obtain ⟨h1, h2, h3⟩ := ih (l + 1) (lptWrite l mask s) (by omega) hpos
      refine ⟨?_, sameButLptHop_trans h2 rfl, fun c => ?_⟩
      · rw [h1, show l + 1 + k = l + (k + 1) by omega]
      · rw [h3, lptRead_lptWrite]
        by_cases h : c = l
        · rw [if_neg (by omega), if_pos h, if_pos (by omega)]
        · rw [if_neg h]
          by_cases hc : l + 1 ≤ c ∧ c < l + 1 + k
          · rw [if_pos hc, if_pos (by omega)]
          · rw [if_neg hc, if_neg (by omega)]

/-- Everything one step of the operation in flight can do: nothing; one framebuffer byte and HOP; one table entry and HOP. -/
theorem hopStep_cases (s : State) :
    (hopStep s = s ∧ s.hop = .none) ∨
    (∃ mode a, s.hop = .bytes mode a [] ∧ hopStep s = setHop .none s) ∨
    (∃ mode a b rest, s.hop = .bytes mode a (b :: rest) ∧
      hopStep s = setHop (if rest.isEmpty then .none else .bytes mode (a + 1) rest) (combineByte mode a b 0xFF#8 s)) ∨
    (∃ a d8, s.hop = .fill a d8 ∧
      hopStep s = setHop (if a + 1 < Config.fbBytes then .fill (a + 1) d8 else .none) (fbWrite a d8 s)) ∨
    (∃ l stop mask, s.hop = .props l stop mask ∧
      hopStep s = setHop (if l + 1 < stop then .props (l + 1) stop mask else .none) (lptWrite l mask s)) := by
  cases h : s.hop with
  | none => exact .inl ⟨by simp [hopStep, h], rfl⟩
  | bytes mode a rest =>
    cases rest with
    | nil => exact .inr (.inl ⟨mode, a, rfl, by simp [hopStep, h]⟩)
    | cons b rest => exact .inr (.inr (.inl ⟨mode, a, b, rest, rfl, by simp [hopStep, h]⟩))
  | fill a d8 => exact .inr (.inr (.inr (.inl ⟨a, d8, rfl, by simp [hopStep, h]⟩)))
  | props l stop mask => exact .inr (.inr (.inr (.inr ⟨l, stop, mask, rfl, by simp [hopStep, h]⟩)))

/-- R37, R38: a step of an operation that stays inside its storage keeps both tables in canonical form. -/
theorem hopStep_wf {s : State} (hf : Memory.wf s.fb) (hl : Memory.lptWf s.lpt) (ho : hopOk s) :
    Memory.wf (hopStep s).fb ∧ Memory.lptWf (hopStep s).lpt := by
  unfold hopOk at ho
  rcases hopStep_cases s with ⟨h, -⟩ | ⟨_, _, -, h⟩ | ⟨_, _, _, _, e, h⟩ | ⟨_, _, e, h⟩ | ⟨_, _, _, e, h⟩ <;> rw [h]
  · exact ⟨hf, hl⟩
  · exact ⟨hf, hl⟩
  · rw [e] at ho
    obtain ⟨-, -, hb⟩ := ho
    rw [List.length_cons] at hb
    exact ⟨wf_combineByte hf (by omega), hl⟩
  · rw [e] at ho
    exact ⟨wf_fbWrite hf ho, hl⟩
  · rw [e] at ho
    exact ⟨hf, lptWf_lptWrite hl (by omega)⟩

end Sys2Proof.Machine
end

