-- ==== Sys2Proof/Laws/Sequencer.lean ====
section
/-! SUPPORT. The two phases of a tick in closed form: everything each of them does, said once. -/

namespace Sys2Proof.Machine

/-- R84: the colour phase 1 drives. -/
def tickColor (s : State) : BitVec 2 := if s.lpe then (currentProps s).extractLsb' 0 2 else s.color

/-- R83: the events of phase 1. -/
def phase1Events (s : State) : List Event :=
  [.hs false] ++ (if s.lpe then [.col (tickColor s)] else []) ++ [.hs true, .vs s.vtarget.level]

/-- R83. -/
theorem phase1_eq (s : State) : phase1 s =
    { s with
      tickPending := false, hsyncN := true, color := tickColor s, vsyncN := s.vtarget.level, phase := .waitSer,
      trace := s.trace ++ phase1Events s } := by
  cases h : s.lpe <;>
    simp [phase1, driveHsync, applyLineProps, applyVsync, emit, tickColor, phase1Events, currentProps, lptRead, h]

/-- R86 step 6: the events of a transfer. -/
def phase2Events (s : State) : List Event :=
  (if s.running then [.prep s.line (rowBytes s), .xmit] else []) ++ [.ka]

/-- R88: the line after the current one. -/
def nextLine (s : State) : Nat := (s.line.toNat + 1) % Config.totalLines

/-- R88: the VSYNC action scheduled for line `l`. -/
def scheduledTarget (l : Nat) (v : VTarget) : VTarget :=
  if l = Config.vsyncEndLine then .vend else if l = Config.vsyncBeginLine then .vbegin else v

/-- R86. -/
theorem phase2_eq (s : State) : phase2 s =
    { s with
      serBusy := s.running || s.serBusy, serLive := s.running || s.serLive
      serBuf := if s.running then rowBytes s else s.serBuf
      line := BitVec.ofNat 10 (nextLine s), vtarget := scheduledTarget (nextLine s) s.vtarget
      bufsel := bufselOf (nextLine s), phase := .idle, trace := s.trace ++ phase2Events s } := by
  cases h : s.running <;>
    simp [phase2, transferLine, advanceCursor, emit, phase2Events, nextLine, scheduledTarget, h] <;> rfl

theorem nextLine_lt (s : State) : nextLine s < 525 := Nat.mod_lt _ (by decide)

theorem toNat_nextLine (s : State) : (BitVec.ofNat 10 (nextLine s)).toNat = nextLine s := by
  have := nextLine_lt s
  simp only [BitVec.toNat_ofNat]
  omega

@[simp] theorem length_rowBytes (s : State) : (rowBytes s).length = 64 := by
  cases h : s.bufsel <;> simp [rowBytes, blankRow, h]

/-- The bytes of the selected row depend on the framebuffer and the selection alone. -/
theorem rowBytes_congr {s t : State} (hb : t.bufsel = s.bufsel) (h : t.fb = s.fb) (he : t.fbEpoch = s.fbEpoch) :
    rowBytes t = rowBytes s := by
  simp only [rowBytes, hb, fbRead_congr h he]

/-- R83: SEQ's move between ticks. -/
theorem seqMove_idle {s : State} (h : s.phase = .idle) :
    seqMove s = .next (if s.enabled = true ∧ s.tickPending = true then phase1 s else s) := by
  cases he : s.enabled <;> cases ht : s.tickPending <;> simp [seqMove, h, he, ht]

/-- R86: SEQ's move inside a tick, with a serializer that keeps R96. -/
theorem seqMove_waitSer {s : State} (h : s.phase = .waitSer) (hl : s.serLive = s.serBusy) :
    seqMove s = .next (if s.running = true ∧ s.serBusy = true then s else phase2 s) := by
  cases hr : s.running <;> cases hb : s.serBusy <;> simp [seqMove, h, hl, hr, hb]

/-- Everything SEQ's move can do: hold, phase 1, phase 2, or 93 U1's fault. -/
theorem seqMove_cases (s : State) :
    (seqMove s = .next s ∧
      ((s.phase = .idle ∧ ¬(s.enabled = true ∧ s.tickPending = true)) ∨
        (s.phase = .waitSer ∧ s.running = true ∧ s.serBusy = true))) ∨
    (seqMove s = .next (phase1 s) ∧ s.phase = .idle ∧ s.enabled = true ∧ s.tickPending = true) ∨
    (seqMove s = .next (phase2 s) ∧ s.phase = .waitSer ∧
      (s.running = true → s.serBusy = false ∧ s.serLive = false)) ∨
    (seqMove s = .fault .prepIntoLiveTransfer ∧ s.phase = .waitSer ∧ s.running = true ∧ s.serBusy = false ∧
      s.serLive = true) := by
  cases hp : s.phase <;> cases he : s.enabled <;> cases ht : s.tickPending <;> cases hr : s.running <;>
    cases hb : s.serBusy <;> cases hl : s.serLive <;> simp [seqMove, hp, he, ht, hr, hb, hl]

end Sys2Proof.Machine
end

