-- ==== Sys2Proof/Laws/Exec.lean ====
section
/-! SUPPORT. What every instruction has in common, and what each family can do, said once. -/

namespace Sys2Proof.Machine

open Sys2Proof.Safety

/-- What no instruction touches: the tick in progress, the outputs, the serializer, the trace, the build and the inputs. -/
structure OutsideKept (t s : State) : Prop where
  phase : t.phase = s.phase
  hsyncN : t.hsyncN = s.hsyncN
  vsyncN : t.vsyncN = s.vsyncN
  color : t.color = s.color
  serBusy : t.serBusy = s.serBusy
  serLive : t.serLive = s.serLive
  serBuf : t.serBuf = s.serBuf
  trace : t.trace = s.trace
  lpe : t.lpe = s.lpe
  bus : t.bus = s.bus
  sched : t.sched = s.sched
  turn : t.turn = s.turn
  fbEpoch : t.fbEpoch = s.fbEpoch

/-- What START and STOP alone touch. -/
structure ControlKept (t s : State) : Prop where
  enabled : t.enabled = s.enabled
  tickPending : t.tickPending = s.tickPending
  line : t.line = s.line
  bufsel : t.bufsel = s.bufsel
  vtarget : t.vtarget = s.vtarget

theorem OutsideKept.refl (s : State) : OutsideKept s s := by constructor <;> rfl
theorem ControlKept.refl (s : State) : ControlKept s s := by constructor <;> rfl

theorem hopStep_outside (s : State) : OutsideKept (hopStep s) s := by
  rcases hopStep_cases s with ⟨h, -⟩ | ⟨_, _, -, h⟩ | ⟨_, _, _, _, -, h⟩ | ⟨_, _, -, h⟩ | ⟨_, _, _, -, h⟩ <;> rw [h] <;>
    constructor <;> rfl

theorem hopStep_control (s : State) : ControlKept (hopStep s) s := by
  rcases hopStep_cases s with ⟨h, -⟩ | ⟨_, _, -, h⟩ | ⟨_, _, _, _, -, h⟩ | ⟨_, _, -, h⟩ | ⟨_, _, _, -, h⟩ <;> rw [h] <;>
    constructor <;> rfl

theorem beginHop_outside (h : Hop) (s : State) : OutsideKept (beginHop h s) s :=
  let k := hopStep_outside (setHop h s)
  ⟨k.phase, k.hsyncN, k.vsyncN, k.color, k.serBusy, k.serLive, k.serBuf, k.trace, k.lpe, k.bus, k.sched, k.turn, k.fbEpoch⟩

theorem beginHop_control (h : Hop) (s : State) : ControlKept (beginHop h s) s :=
  let k := hopStep_control (setHop h s)
  ⟨k.enabled, k.tickPending, k.line, k.bufsel, k.vtarget⟩

/-- HOST's other fields over a step of the operation in flight. -/
theorem hopStep_registers (s : State) : (hopStep s).xy = s.xy ∧ (hopStep s).data = s.data ∧
    (hopStep s).result = s.result ∧ (hopStep s).running = s.running ∧ (hopStep s).rdata = s.rdata := by
  rcases hopStep_cases s with ⟨h, -⟩ | ⟨_, _, -, h⟩ | ⟨_, _, _, _, -, h⟩ | ⟨_, _, -, h⟩ | ⟨_, _, _, -, h⟩ <;> rw [h] <;>
    exact ⟨rfl, rfl, rfl, rfl, rfl⟩

/-- The shapes of an instruction's effect. -/
inductive Effect (s : State) : State → Prop
  | none : Effect s s
  | start : Effect s { s with enabled := true, line := 0#10, bufsel := .row 0, vtarget := .vend, tickPending := false }
  | stop : Effect s { s with enabled := false, tickPending := false }
  | running (v : Bool) : Effect s { s with running := v }
  | lpt (l : Nat) (v : Byte) (h : s.lpe = true ∧ l < 480) : Effect s (lptWrite l v s)
  | fb (a : Nat) (v : Byte) (h : a < 30720) : Effect s (fbWrite a v s)
  | bytes (mode : Mode) (a : Nat) (b0 b1 b2 b3 : Byte) (h : mode ≠ .reserved ∧ a + 4 ≤ 30720) :
      Effect s (beginHop (.bytes mode a [b0, b1, b2, b3]) s)
  | fill (d8 : Byte) : Effect s (beginHop (.fill 0 d8) s)
  | props (lo hi : Nat) (mask : Byte) (h : s.lpe = true ∧ lo < hi ∧ hi ≤ 480) : Effect s (beginHop (.props lo hi mask) s)
  | result (v : Word) : Effect s (setResult v s)
  | respond (v : Word) : Effect s (respond v s)
  | xy (w : Word) : Effect s { s with xy := w }
  | data (w : Word) : Effect s { s with data := w }

theorem propIndex_some {s : State} {l : BitVec 16} {n : Nat} (h : propIndex s l = some n) :
    s.lpe = true ∧ 0 ≤ s16 l ∧ s16 l < 480 ∧ n = (s16 l).toNat := by
  unfold propIndex at h
  split_ifs at h with hc
  obtain rfl := Option.some.inj h
  exact ⟨hc.1, hc.2.1, by exact_mod_cast hc.2.2, rfl⟩

theorem unitIndex_some {cols bytes : Nat} {x y : Int} {a : Nat} (h : unitIndex cols bytes x y = some a) :
    0 ≤ x ∧ x < cols ∧ 0 ≤ y ∧ y < 480 ∧ a = 64 * y.toNat + bytes * x.toNat := by
  unfold unitIndex at h
  split_ifs at h with hc
  obtain rfl := Option.some.inj h
  exact ⟨hc.1, hc.2.1, hc.2.2.1, by exact_mod_cast hc.2.2.2, rfl⟩

theorem pixelIndex_some {x y : Int} {a b : Nat} (h : pixelIndex x y = some (a, b)) :
    0 ≤ x ∧ x < 512 ∧ 0 ≤ y ∧ y < 480 ∧ a = 64 * y.toNat + x.toNat / 8 ∧ b = 7 - x.toNat % 8 := by
  unfold pixelIndex at h
  split_ifs at h with hc
  obtain ⟨rfl, rfl⟩ := Prod.mk.inj (Option.some.inj h)
  exact ⟨hc.1, by exact_mod_cast hc.2.1, hc.2.2.1, by exact_mod_cast hc.2.2.2, rfl, rfl⟩

theorem rawWordOk_iff (off : BitVec 15) : rawWordOk off = true ↔ off.toNat % 4 = 0 ∧ off.toNat + 3 < 30720 := by
  simp [rawWordOk]

theorem execSetprop_effect (mask : Byte) (line : BitVec 16) (s : State) :
    ∃ t, execSetprop mask line s = .next t ∧ Effect s t := by
  unfold execSetprop
  split
  · rename_i l h
    obtain ⟨h1, h2, h3, rfl⟩ := propIndex_some h
    exact ⟨_, rfl, .lpt _ _ ⟨h1, by omega⟩⟩
  · exact ⟨_, rfl, .none⟩

theorem execSetprops_effect (mask : Byte) (line : BitVec 16) (s : State) :
    ∃ t, execSetprops mask line s = .next t ∧ Effect s t := by
  unfold execSetprops
  dsimp only
  split_ifs with h
  · exact ⟨_, rfl, .props _ _ _ ⟨h.1, h.2, min_le_right _ _⟩⟩
  · exact ⟨_, rfl, .none⟩

theorem execGetprop_effect (line : BitVec 16) (s : State) : ∃ v, execGetprop line s = .next (setResult v s) := by
  unfold execGetprop
  split <;> exact ⟨_, rfl⟩

theorem execPutpix_effect (mode : Mode) (v : BitVec 1) (s : State) :
    ∃ t, execPutpix mode v s = .next t ∧ Effect s t := by
  unfold execPutpix
  split_ifs
  · exact ⟨_, rfl, .none⟩
  · split
    · rename_i a b h
      obtain ⟨h1, h2, h3, h4, rfl, rfl⟩ := pixelIndex_some h
      exact ⟨_, rfl, .fb _ _ (by omega)⟩
    · exact ⟨_, rfl, .none⟩

theorem execPutpix8_effect (mode : Mode) (d8 : Byte) (s : State) :
    ∃ t, execPutpix8 mode d8 s = .next t ∧ Effect s t := by
  unfold execPutpix8
  split_ifs
  · exact ⟨_, rfl, .none⟩
  · split
    · rename_i a h
      obtain ⟨h1, h2, h3, h4, rfl⟩ := unitIndex_some h
      exact ⟨_, rfl, .fb _ _ (by simp only [Config.bwidth] at h2; omega)⟩
    · exact ⟨_, rfl, .none⟩

theorem execPutpix32_effect (mode : Mode) (s : State) : ∃ t, execPutpix32 mode s = .next t ∧ Effect s t := by
  unfold execPutpix32
  split_ifs with hm
  · exact ⟨_, rfl, .none⟩
  · split
    · rename_i a h
      obtain ⟨h1, h2, h3, h4, rfl⟩ := unitIndex_some h
      exact ⟨_, rfl, .bytes _ _ _ _ _ _ ⟨hm, by simp only [Config.wwidth] at h2; omega⟩⟩
    · exact ⟨_, rfl, .none⟩

theorem execGetpix_effect (s : State) : ∃ v, execGetpix s = .next (setResult v s) := by
  unfold execGetpix
  split <;> exact ⟨_, rfl⟩

theorem execGetpix8_effect (s : State) : ∃ v, execGetpix8 s = .next (setResult v s) := by
  unfold execGetpix8
  split <;> exact ⟨_, rfl⟩

theorem execGetpix32_effect (s : State) : ∃ v, execGetpix32 s = .next (setResult v s) := by
  unfold execGetpix32
  split <;> exact ⟨_, rfl⟩

/-- What a command can do to the state, command by command. -/
theorem execWrCmd_effect (w : Word) (s : State) : ∃ t, execWrCmd w s = .next t ∧ Effect s t := by
  unfold execWrCmd
  split
  · exact ⟨_, rfl, .none⟩
  · exact ⟨_, rfl, .start⟩
  · exact ⟨_, rfl, .stop⟩
  · exact ⟨_, rfl, .running false⟩
  · exact ⟨_, rfl, .running true⟩
  · exact execSetprop_effect _ _ s
  · exact execSetprops_effect _ _ s
  · obtain ⟨v, h⟩ := execGetprop_effect (cmdLine w) s
    exact ⟨_, h, .result v⟩
  · exact execPutpix_effect _ _ s
  · exact execPutpix8_effect _ _ s
  · exact execPutpix32_effect _ s
  · obtain ⟨v, h⟩ := execGetpix_effect s
    exact ⟨_, h, .result v⟩
  · obtain ⟨v, h⟩ := execGetpix8_effect s
    exact ⟨_, h, .result v⟩
  · obtain ⟨v, h⟩ := execGetpix32_effect s
    exact ⟨_, h, .result v⟩
  · exact ⟨_, rfl, .fill _⟩
  · exact ⟨_, rfl, .none⟩

/-- Everything an instruction can do: it answers a next state, by one of the shapes of `Effect`. -/
theorem exec_effect (i : Instr) (s : State) : ∃ t, exec i s = .next t ∧ Effect s t := by
  cases i with
  | nop => exact ⟨_, rfl, .none⟩
  | start => exact ⟨_, rfl, .start⟩
  | stop => exact ⟨_, rfl, .stop⟩
  | pause => exact ⟨_, rfl, .running false⟩
  | resume => exact ⟨_, rfl, .running true⟩
  | setprop mask line => exact execSetprop_effect mask line s
  | setprops mask line => exact execSetprops_effect mask line s
  | getprop line =>
    obtain ⟨v, h⟩ := execGetprop_effect line s
    exact ⟨_, h, .result v⟩
  | putpix mode v => exact execPutpix_effect mode v s
  | putpix8 mode d8 => exact execPutpix8_effect mode d8 s
  | putpix32 mode => exact execPutpix32_effect mode s
  | getpix =>
    obtain ⟨v, h⟩ := execGetpix_effect s
    exact ⟨_, h, .result v⟩
  | getpix8 =>
    obtain ⟨v, h⟩ := execGetpix8_effect s
    exact ⟨_, h, .result v⟩
  | getpix32 =>
    obtain ⟨v, h⟩ := execGetpix32_effect s
    exact ⟨_, h, .result v⟩
  | fill d8 => exact ⟨_, rfl, .fill d8⟩
  | reservedOpc opc => exact ⟨_, rfl, .none⟩
  | fbRd8 off => exact ⟨_, rfl, .respond _⟩
  | fbWr8 off d =>
    show ∃ t, execFbWr8 off d s = .next t ∧ Effect s t
    unfold execFbWr8
    split_ifs with h
    · exact ⟨_, rfl, .fb _ _ h⟩
    · exact ⟨_, rfl, .none⟩
  | fbRd32 off => exact ⟨_, rfl, .respond _⟩
  | fbWr32 off d =>
    show ∃ t, execFbWr32 off d s = .next t ∧ Effect s t
    unfold execFbWr32
    split_ifs with h
    · have := (rawWordOk_iff off).1 h
      exact ⟨_, rfl, .bytes _ _ _ _ _ _ ⟨by decide, by omega⟩⟩
    · exact ⟨_, rfl, .none⟩
  | wrCmd w => exact execWrCmd_effect w s
  | wrXy w => exact ⟨_, rfl, .xy w⟩
  | wrData w => exact ⟨_, rfl, .data w⟩
  | rdCmd => exact ⟨_, rfl, .respond _⟩
  | rdXy => exact ⟨_, rfl, .respond _⟩
  | rdData => exact ⟨_, rfl, .respond _⟩
  | rdResult => exact ⟨_, rfl, .respond _⟩
  | rdStatus => exact ⟨_, rfl, .respond _⟩
  | regByte we off => cases we <;> first | exact ⟨_, rfl, .none⟩ | exact ⟨_, rfl, .respond _⟩
  | regOther32 we off => cases we <;> first | exact ⟨_, rfl, .none⟩ | exact ⟨_, rfl, .respond _⟩

/-- No instruction touches the tick, the outputs, the serializer, the trace or the inputs. -/
theorem Effect.outside {s t : State} (h : Effect s t) : OutsideKept t s := by
  cases h with
  | bytes mode a b0 b1 b2 b3 h => exact beginHop_outside _ s
  | fill d8 => exact beginHop_outside _ s
  | props lo hi mask h => exact beginHop_outside _ s
  | _ => constructor <;> rfl

end Sys2Proof.Machine
end

