-- ==== Sys2Proof/Laws/PerInstr.lean ====
section
/-! SUPPORT. Per instruction: its encoding lies in its own row of spec/opcode_table.json, at that row's level. The rows'
match and mask are copied from the table. -/

namespace Sys2Proof.Laws.TableRow

/-- A row of spec/opcode_table.json. -/
structure Row where
  /-- A row of a command word; else of a transaction word. -/
  isCommand : Bool
  pattern : Nat
  mask : Nat

/-- The row of an instruction. -/
def rowOf : Instr → Row
  | .nop => ⟨true, 0x00000000, 0xFF000000⟩
  | .start => ⟨true, 0x01000000, 0xFF000000⟩
  | .stop => ⟨true, 0x02000000, 0xFF000000⟩
  | .pause => ⟨true, 0x03000000, 0xFF000000⟩
  | .resume => ⟨true, 0x04000000, 0xFF000000⟩
  | .setprop _ _ => ⟨true, 0x10000000, 0xFF000000⟩
  | .setprops _ _ => ⟨true, 0x11000000, 0xFF000000⟩
  | .getprop _ => ⟨true, 0x12000000, 0xFF000000⟩
  | .putpix _ _ => ⟨true, 0x20000000, 0xFF000000⟩
  | .putpix8 _ _ => ⟨true, 0x21000000, 0xFF000000⟩
  | .putpix32 _ => ⟨true, 0x22000000, 0xFF000000⟩
  | .getpix => ⟨true, 0x24000000, 0xFF000000⟩
  | .getpix8 => ⟨true, 0x25000000, 0xFF000000⟩
  | .getpix32 => ⟨true, 0x26000000, 0xFF000000⟩
  | .fill _ => ⟨true, 0x30000000, 0xFF000000⟩
  | .reservedOpc _ => ⟨true, 0x00000000, 0x00000000⟩
  | .fbRd8 _ => ⟨false, 0x00000, 0x38000⟩
  | .fbWr8 _ _ => ⟨false, 0x20000, 0x38000⟩
  | .fbRd32 _ => ⟨false, 0x10000, 0x38000⟩
  | .fbWr32 _ _ => ⟨false, 0x30000, 0x38000⟩
  | .wrCmd _ => ⟨false, 0x38000, 0x3FFFF⟩
  | .wrXy _ => ⟨false, 0x38004, 0x3FFFF⟩
  | .wrData _ => ⟨false, 0x38008, 0x3FFFF⟩
  | .rdCmd => ⟨false, 0x18000, 0x3FFFF⟩
  | .rdXy => ⟨false, 0x18004, 0x3FFFF⟩
  | .rdData => ⟨false, 0x18008, 0x3FFFF⟩
  | .rdResult => ⟨false, 0x1800C, 0x3FFFF⟩
  | .rdStatus => ⟨false, 0x18010, 0x3FFFF⟩
  | .regByte _ _ => ⟨false, 0x08000, 0x18000⟩
  | .regOther32 _ _ => ⟨false, 0x18000, 0x18000⟩

/-- A word lies in a row. -/
def Matches (r : Row) : Encoded → Prop
  | .command w => r.isCommand = true ∧ w &&& BitVec.ofNat 32 r.mask = BitVec.ofNat 32 r.pattern
  | .transaction t => r.isCommand = false ∧ t.bt &&& BitVec.ofNat 18 r.mask = BitVec.ofNat 18 r.pattern

/-- The encoding of the instruction lies in its row. -/
def Statement (i : Instr) : Prop := Matches (rowOf i) (encode i)

/-! ## The fixed bits of a word -/

theorem opcode_bits {c : BitVec 8} {r : BitVec 24} {p : Nat} (h : BitVec.ofNat 32 p = c ++ 0#24) :
    (c ++ r : BitVec 32) &&& BitVec.ofNat 32 0xFF000000 = BitVec.ofNat 32 p := by
  rw [h]
  apply BitVec.eq_of_getLsbD_eq
  intro i hi
  have hm : ∀ j < 32, (BitVec.ofNat 32 0xFF000000).getLsbD j = decide (24 ≤ j) := by decide
  have h1 : (c ++ r : BitVec 32).getLsbD i = if i < 24 then r.getLsbD i else c.getLsbD (i - 24) :=
    BitVec.getLsbD_append.trans (by simp)
  have h2 : (c ++ 0#24 : BitVec 32).getLsbD i = if i < 24 then false else c.getLsbD (i - 24) :=
    BitVec.getLsbD_append.trans (by simp)
  rw [BitVec.getLsbD_and, hm i hi, h1, h2]
  by_cases hl : i < 24
  · simp [hl]
  · simp [hl, (by omega : 24 ≤ i)]

/-- The three fixed bits of a transaction word, under a mask that looks at some of them. -/
theorem class_bits (we sz reg : Bool) (off : BitVec 15) (mask : BitVec 18) (h : ∀ j < 15, mask.getLsbD j = false) :
    mkBt we sz reg off &&& mask = mkBt we sz reg 0 &&& mask := by
  apply BitVec.eq_of_getLsbD_eq
  intro i hi
  rw [BitVec.getLsbD_and, BitVec.getLsbD_and, getLsbD_mkBt, getLsbD_mkBt]
  by_cases hl : i < 15
  · simp [hl, h i hl]
  · simp [hl]

/-! ## One lemma per instruction -/

theorem nop : Statement .nop := ⟨rfl, by decide⟩
theorem start : Statement .start := ⟨rfl, by decide⟩
theorem stop : Statement .stop := ⟨rfl, by decide⟩
theorem pause : Statement .pause := ⟨rfl, by decide⟩
theorem resume : Statement .resume := ⟨rfl, by decide⟩

theorem format_bits {c : BitVec 8} {w : Word} {p : Nat} (h : BitVec.ofNat 32 p = c ++ 0#24)
    (hw : ∃ r : BitVec 24, w.toNat = (c ++ r).toNat) : w &&& BitVec.ofNat 32 0xFF000000 = BitVec.ofNat 32 p := by
  obtain ⟨r, hr⟩ := hw
  have : w = (c ++ r : BitVec 32) := BitVec.eq_of_toNat_eq hr
  rw [this]
  exact opcode_bits h

theorem formatL_bits (o : Opcode) (mask : Byte) (line : BitVec 16) :
    ∃ r : BitVec 24, (formatL o mask line).toNat = (o.code ++ r).toNat :=
  ⟨mask ++ line, append_assoc3 _ _ _⟩

theorem formatP_bits (o : Opcode) (mode : Mode) (d8 : Byte) :
    ∃ r : BitVec 24, (formatP o mode d8).toNat = (o.code ++ r).toNat := by
  refine ⟨0#6 ++ mode.bits ++ 0#8 ++ d8, ?_⟩
  show (o.code ++ 0#6 ++ mode.bits ++ 0#8 ++ d8).toNat = (o.code ++ (0#6 ++ mode.bits ++ 0#8 ++ d8)).toNat
  simp only [BitVec.toNat_append, Nat.shiftLeft_or_distrib, ← Nat.shiftLeft_add, Nat.or_assoc]

theorem formatF_bits (o : Opcode) (d8 : Byte) : ∃ r : BitVec 24, (formatF o d8).toNat = (o.code ++ r).toNat :=
  ⟨0#16 ++ d8, append_assoc3 _ _ _⟩

theorem setprop (mask : Byte) (line : BitVec 16) : Statement (.setprop mask line) :=
  ⟨rfl, format_bits (p := 0x10000000) (by decide) (formatL_bits .setprop mask line)⟩
theorem setprops (mask : Byte) (line : BitVec 16) : Statement (.setprops mask line) :=
  ⟨rfl, format_bits (p := 0x11000000) (by decide) (formatL_bits .setprops mask line)⟩
theorem getprop (line : BitVec 16) : Statement (.getprop line) :=
  ⟨rfl, format_bits (p := 0x12000000) (by decide) (formatL_bits .getprop 0 line)⟩
theorem putpix (mode : Mode) (v : BitVec 1) : Statement (.putpix mode v) :=
  ⟨rfl, format_bits (p := 0x20000000) (by decide) (formatP_bits .putpix mode (0#7 ++ v))⟩
theorem putpix8 (mode : Mode) (d8 : Byte) : Statement (.putpix8 mode d8) :=
  ⟨rfl, format_bits (p := 0x21000000) (by decide) (formatP_bits .putpix8 mode d8)⟩
theorem putpix32 (mode : Mode) : Statement (.putpix32 mode) :=
  ⟨rfl, format_bits (p := 0x22000000) (by decide) (formatP_bits .putpix32 mode 0)⟩
theorem getpix : Statement .getpix := ⟨rfl, by decide⟩
theorem getpix8 : Statement .getpix8 := ⟨rfl, by decide⟩
theorem getpix32 : Statement .getpix32 := ⟨rfl, by decide⟩
theorem fill (d8 : Byte) : Statement (.fill d8) := ⟨rfl, format_bits (p := 0x30000000) (by decide) (formatF_bits .fill d8)⟩
theorem reservedOpc (opc : BitVec 8) : Statement (.reservedOpc opc) := ⟨rfl, BitVec.and_zero⟩

theorem fbRd8 (off : BitVec 15) : Statement (.fbRd8 off) :=
  ⟨rfl, (class_bits _ _ _ off 0x38000 (by decide)).trans (by decide : mkBt false false false 0 &&& 0x38000 = 0x00000)⟩
theorem fbWr8 (off : BitVec 15) (d : Byte) : Statement (.fbWr8 off d) :=
  ⟨rfl, (class_bits _ _ _ off 0x38000 (by decide)).trans (by decide : mkBt true false false 0 &&& 0x38000 = 0x20000)⟩
theorem fbRd32 (off : BitVec 15) : Statement (.fbRd32 off) :=
  ⟨rfl, (class_bits _ _ _ off 0x38000 (by decide)).trans (by decide : mkBt false true false 0 &&& 0x38000 = 0x10000)⟩
theorem fbWr32 (off : BitVec 15) (d : Word) : Statement (.fbWr32 off d) :=
  ⟨rfl, (class_bits _ _ _ off 0x38000 (by decide)).trans (by decide : mkBt true true false 0 &&& 0x38000 = 0x30000)⟩
theorem wrCmd (w : Word) : Statement (.wrCmd w) := ⟨rfl, (by decide : mkBt true true true 0x0000 &&& 0x3FFFF = 0x38000)⟩
theorem wrXy (w : Word) : Statement (.wrXy w) := ⟨rfl, (by decide : mkBt true true true 0x0004 &&& 0x3FFFF = 0x38004)⟩
theorem wrData (w : Word) : Statement (.wrData w) :=
  ⟨rfl, (by decide : mkBt true true true 0x0008 &&& 0x3FFFF = 0x38008)⟩
theorem rdCmd : Statement .rdCmd := ⟨rfl, by decide⟩
theorem rdXy : Statement .rdXy := ⟨rfl, by decide⟩
theorem rdData : Statement .rdData := ⟨rfl, by decide⟩
theorem rdResult : Statement .rdResult := ⟨rfl, by decide⟩
theorem rdStatus : Statement .rdStatus := ⟨rfl, by decide⟩
theorem regByte (we : Bool) (off : BitVec 15) : Statement (.regByte we off) :=
  ⟨rfl, (class_bits _ _ _ off 0x18000 (by decide)).trans
    (by cases we <;> decide : mkBt we false true 0 &&& 0x18000 = 0x08000)⟩
theorem regOther32 (we : Bool) (off : BitVec 15) : Statement (.regOther32 we off) :=
  ⟨rfl, (class_bits _ _ _ off 0x18000 (by decide)).trans
    (by cases we <;> decide : mkBt we true true 0 &&& 0x18000 = 0x18000)⟩

end Sys2Proof.Laws.TableRow
end

