-- ==== Sys2Proof/Laws/Step.lean ====
section
/-! SUPPORT. Everything a step can do, said once: a turn is taken, then the agent holds or makes one of the moves below. -/

namespace Sys2Proof.Machine

/-- Taking a turn touches the schedule and the turn counter alone. -/
theorem takeTurn_eq (s : State) : takeTurn s = { s with sched := (takeTurn s).sched, turn := (takeTurn s).turn } := by
  cases h : s.sched <;> simp [takeTurn, h]

/-- A scheduled turn. -/
theorem step_of_sched {s : State} {a : Agent} {agents : List Agent} (h : s.sched = a :: agents) :
    step s = agentMove a { s with sched := agents } := by
  simp [step, turnStep, nextAgent, takeTurn, h]

/-- A run of `k + 1` turns whose first answers `t` is a run of `k` turns from `t`. -/
theorem run_of_step {s t : State} (k : Nat) (h : step s = .next t) :
    Host.Core.run Sys2Proof.core (k + 1) s = Host.Core.run Sys2Proof.core k t := by
  have general : ∀ (M : Host.Core) (a b : M.State), M.step a = .next b → M.run (k + 1) a = M.run k b :=
    fun M a b hab => by simp [Host.Core.run, hab]
  exact general Sys2Proof.core s t h

/-- The moves, with `u` the state after the turn is taken. -/
inductive Move (s u : State) : State → Prop
  /-- The agent has no enabled step, or HOST has nothing to issue. -/
  | hold (h : nextAgent s ≠ .rst) : Move s u u
  | hop (ha : nextAgent s = .host) (hp : s.phase = .idle) (hh : s.hop ≠ .none) : Move s u (hopStep u)
  | issue (b : Transaction) (rest : List Transaction) (t : State) (ha : nextAgent s = .host) (hp : s.phase = .idle)
      (hh : s.hop = .none) (hb : s.bus = b :: rest) (he : exec (decodeBus b) { u with bus := rest } = .next t) : Move s u t
  | phase1 (ha : nextAgent s = .seq) (hp : s.phase = .idle) (he : s.enabled = true) (ht : s.tickPending = true) :
      Move s u (phase1 u)
  | phase2 (ha : nextAgent s = .seq) (hp : s.phase = .waitSer)
      (hr : s.running = true → s.serBusy = false ∧ s.serLive = false) : Move s u (phase2 u)
  | request (ha : nextAgent s = .tmr) (he : s.enabled = true) : Move s u { u with tickPending := true }
  | done (ha : nextAgent s = .ser) (hb : s.serBusy = true) : Move s u { u with serBusy := false, serLive := false }
  | reset (ha : nextAgent s = .rst) : Move s u (resetMachine u)

theorem hop_pending_iff (h : Hop) : h.pending = true ↔ h ≠ .none := by cases h <;> simp [Hop.pending]

/-- R12: everything a step that answers a next state can do. -/
theorem step_cases {s t : State} (h : step s = .next t) :
    ∃ sched turn, Move s { s with sched := sched, turn := turn } t := by
  refine ⟨(takeTurn s).sched, (takeTurn s).turn, ?_⟩
  rw [← takeTurn_eq]
  have hu : (takeTurn s).phase = s.phase ∧ (takeTurn s).hop = s.hop ∧ (takeTurn s).bus = s.bus ∧
      (takeTurn s).enabled = s.enabled ∧ (takeTurn s).tickPending = s.tickPending ∧ (takeTurn s).running = s.running ∧
      (takeTurn s).serBusy = s.serBusy ∧ (takeTurn s).serLive = s.serLive := by
    rw [takeTurn_eq]; exact ⟨rfl, rfl, rfl, rfl, rfl, rfl, rfl, rfl⟩
  obtain ⟨u1, u2, u3, u4, u5, u6, u7, u8⟩ := hu
  have h : agentMove (nextAgent s) (takeTurn s) = .next t := h
  cases ha : nextAgent s <;> simp only [ha, agentMove] at h
  case host =>
    unfold hostMove at h
    split at h
    · obtain rfl := Host.Outcome.next.inj h
      exact .hold (by simp [ha])
    · rename_i hp
      rw [u1] at hp
      split_ifs at h with hh
      · obtain rfl := Host.Outcome.next.inj h
        exact .hop ha hp (u2 ▸ (hop_pending_iff _).1 hh)
      · have hn : s.hop = .none := by
          by_contra hc
          exact hh ((hop_pending_iff _).2 (u2.symm ▸ hc))
        split at h
        · obtain rfl := Host.Outcome.next.inj h
          exact .hold (by simp [ha])
        · rename_i b rest hb
          exact .issue b rest t ha hp hn (u3 ▸ hb) h
  case seq =>
    rcases seqMove_cases (takeTurn s) with ⟨h1, -⟩ | ⟨h1, h2, h3, h4⟩ | ⟨h1, h2, h3⟩ | ⟨h1, -⟩ <;> rw [h1] at h
    · obtain rfl := Host.Outcome.next.inj h
      exact .hold (by simp [ha])
    · obtain rfl := Host.Outcome.next.inj h
      exact .phase1 ha (u1 ▸ h2) (u4 ▸ h3) (u5 ▸ h4)
    · obtain rfl := Host.Outcome.next.inj h
      exact .phase2 ha (u1 ▸ h2) (by rw [u6, u7, u8] at h3; exact h3)
    · cases h
  case tmr =>
    obtain rfl := Host.Outcome.next.inj h
    unfold tmrMove
    split_ifs with he
    · exact .request ha (u4 ▸ he)
    · exact .hold (by simp [ha])
  case ser =>
    obtain rfl := Host.Outcome.next.inj h
    unfold serMove
    split_ifs with hb
    · exact .done ha (u7 ▸ hb)
    · exact .hold (by simp [ha])
  case rst =>
    obtain rfl := Host.Outcome.next.inj h
    exact .reset ha

/-- R91: phase 1 completes no tick. -/
@[simp] theorem ticksDone_phase1 (s : State) : Safety.ticksDone (phase1 s).trace = Safety.ticksDone s.trace := by
  rw [phase1_eq]
  cases h : s.lpe <;> simp [Safety.ticksDone, phase1Events, List.count_append, h]

/-- R90, R91: phase 2 completes one tick. -/
@[simp] theorem ticksDone_phase2 (s : State) : Safety.ticksDone (phase2 s).trace = Safety.ticksDone s.trace + 1 := by
  rw [phase2_eq]
  cases h : s.running <;> simp [Safety.ticksDone, phase2Events, List.count_append, h]

/-- What HOST issues, seen from a move that issues. -/
theorem issued_eq {s : State} {b : Transaction} {rest : List Transaction} (ha : nextAgent s = .host)
    (hp : s.phase = .idle) (hh : s.hop = .none) (hb : s.bus = b :: rest) :
    Safety.issued s = some (Safety.commandOf (decodeBus b)) := by
  simp [Safety.issued, ha, hp, hh, hb]

end Sys2Proof.Machine
end

