-- ==== Sys2Proof/Tests/Slice0.lean ====
section
/-! SUPPORT. The model's own tests. Expected values are the spec's: the vectors of 95_test_vectors.md (named by their section),
the examples of the rules, and words written out from the encodings of 30_encoding.md. Then, for each statement of the
provers, concrete values that meet its hypotheses. -/

namespace Sys2Proof.Tests

open Sys2Proof Sys2Proof.Machine Sys2Proof.Safety

/-! ## Well-formed instructions: each check refuses an ill-formed term -/

/-- R74: 0x00 is NOP, not a reserved opcode. -/
theorem test_wf_reserved_refuses_nop : WellFormed (.reservedOpc 0x00) = false := by decide
/-- R73: 0x26 is GETPIX32. -/
theorem test_wf_reserved_refuses_getpix32 : WellFormed (.reservedOpc 0x26) = false := by decide
/-- R74. -/
theorem test_wf_reserved_admits : WellFormed (.reservedOpc 0x27) = true := by decide
/-- R65: a 32-bit write of 0x8000 is WR_CMD. -/
theorem test_wf_other_refuses_command : WellFormed (.regOther32 true 0x0000) = false := by decide
/-- R65: a 32-bit read of 0x8010 is RD_STATUS. -/
theorem test_wf_other_refuses_status : WellFormed (.regOther32 false 0x0010) = false := by decide
/-- R65: a 32-bit write of 0x8010 (WR_STATUS) is REG_OTHER32. -/
theorem test_wf_other_admits_status_write : WellFormed (.regOther32 true 0x0010) = true := by decide

/-! ## Decoding: words written out bit by bit from R64 to R73 -/

theorem test_decode_nop : decode (.command 0b00000000_000000000000000000000000#32) = .nop := by decide
theorem test_decode_start : decode (.command 0b00000001_000000000000000000000000#32) = .start := by decide
/-- R75 and L2.2: CMD[23:0] is ignored. -/
theorem test_decode_start_ignores : decode (.command 0x01FFFFFF) = .start := by decide
theorem test_decode_stop : decode (.command 0b00000010_000000000000000000000000#32) = .stop := by decide
theorem test_decode_pause : decode (.command 0b00000011_000000000000000000000000#32) = .pause := by decide
theorem test_decode_resume : decode (.command 0b00000100_000000000000000000000000#32) = .resume := by decide
theorem test_decode_setprop :
    decode (.command 0b00010000_00000011_0000000000001010#32) = .setprop 0x03 10 := by decide
theorem test_decode_setprops :
    decode (.command 0b00010001_00000001_1111111111111011#32) = .setprops 0x01 0xFFFB := by decide
theorem test_decode_getprop :
    decode (.command 0b00010010_11111111_0000000000001010#32) = .getprop 10 := by decide
theorem test_decode_putpix :
    decode (.command 0b00100000_000000_10_00000000_0000000_1#32) = .putpix .xor 1 := by decide
theorem test_decode_putpix8 :
    decode (.command 0b00100001_000000_01_00000000_00001111#32) = .putpix8 .or 0x0F := by decide
theorem test_decode_putpix32 :
    decode (.command 0b00100010_000000_11_00000000_00000000#32) = .putpix32 .reserved := by decide
theorem test_decode_getpix : decode (.command 0b00100100_000000000000000000000000#32) = .getpix := by decide
theorem test_decode_getpix8 : decode (.command 0b00100101_000000000000000000000000#32) = .getpix8 := by decide
theorem test_decode_getpix32 : decode (.command 0b00100110_000000000000000000000000#32) = .getpix32 := by decide
theorem test_decode_fill : decode (.command 0b00110000_0000000000000000_10101010#32) = .fill 0xAA := by decide
theorem test_decode_reserved :
    decode (.command 0b00100011_000000000000000000000000#32) = .reservedOpc 0x23 := by decide
theorem test_decode_fbRd8 : decode (.transaction ⟨0b0_0_0000000001000000#18, 0⟩) = .fbRd8 0x40 := by decide
theorem test_decode_fbWr8 :
    decode (.transaction ⟨0b1_0_0000000000000000#18, 0x000001FF⟩) = .fbWr8 0 0xFF := by decide
theorem test_decode_fbRd32 : decode (.transaction ⟨0b0_1_0111011111111100#18, 0⟩) = .fbRd32 0x77FC := by decide
theorem test_decode_fbWr32 :
    decode (.transaction ⟨0b1_1_0000000000000100#18, 0x000000FF⟩) = .fbWr32 4 0x000000FF := by decide
theorem test_decode_wrCmd :
    decode (.transaction ⟨0b1_1_1000000000000000#18, 0x01000000⟩) = .wrCmd 0x01000000 := by decide
theorem test_decode_wrXy :
    decode (.transaction ⟨0b1_1_1000000000000100#18, 0x01DF01FF⟩) = .wrXy 0x01DF01FF := by decide
theorem test_decode_wrData :
    decode (.transaction ⟨0b1_1_1000000000001000#18, 0x80000001⟩) = .wrData 0x80000001 := by decide
theorem test_decode_rdCmd : decode (.transaction ⟨0b0_1_1000000000000000#18, 0⟩) = .rdCmd := by decide
theorem test_decode_rdXy : decode (.transaction ⟨0b0_1_1000000000000100#18, 0⟩) = .rdXy := by decide
theorem test_decode_rdData : decode (.transaction ⟨0b0_1_1000000000001000#18, 0⟩) = .rdData := by decide
theorem test_decode_rdResult : decode (.transaction ⟨0b0_1_1000000000001100#18, 0⟩) = .rdResult := by decide
theorem test_decode_rdStatus : decode (.transaction ⟨0b0_1_1000000000010000#18, 0⟩) = .rdStatus := by decide
theorem test_decode_regByte :
    decode (.transaction ⟨0b1_0_1000000000000000#18, 0x01⟩) = .regByte true 0 := by decide
theorem test_decode_regOther32 :
    decode (.transaction ⟨0b1_1_1000000000000010#18, 0x01000000⟩) = .regOther32 true 2 := by decide

/-- The opcode table's numbering: a BT row, a command row, a width the table does not have. -/
theorem test_decode_table_words :
    decodeTableWord 24 0x18010 = some .rdStatus ∧ decodeTableWord 32 0x22000000 = some (.putpix32 .set) ∧
      decodeTableWord 16 0 = none ∧ decodeTableWord 24 0x40000 = none := by decide

/-! ## One step of each instruction -/

/-- The next state of an instruction. -/
def after (i : Instr) (s : State) : Option State :=
  match exec i s with
  | .next t => some t
  | .fault _ => none
  | .refused _ => none

/-- The next state of a command word. -/
def afterWord (w : Word) (s : State) : Option State := after (.wrCmd w) s

/-- The next state of the next turn. -/
def next (s : State) : Option State :=
  match step s with
  | .next t => some t
  | .fault _ => none
  | .refused _ => none

/-- The reset state with some framebuffer bytes written and given operands. -/
def small (fb : List Host.Cell) (xy data : Word) : State := { State.reset with fb := fb, xy := xy, data := data }

/-- L2.2. -/
theorem test_status_at_reset : (after .rdStatus State.reset).map (·.rdata) = some 0x00000072 := by decide
/-- L2.6. -/
theorem test_status_without_lpe :
    (after .rdStatus { State.reset with lpe := false }).map (·.rdata) = some 0x00000062 := by decide
/-- L2.2. -/
theorem test_start_status : (afterWord 0x01000000 State.reset).map status = some 0x00000073 := by decide
/-- L2.2: START in the middle of a frame. -/
theorem test_start_rewinds :
    (afterWord 0x01FFFFFF { State.reset with enabled := true, line := 485, bufsel := .blank, tickPending := true }).map
      (fun t => (t.line, t.bufsel, t.tickPending)) = some (0, .row 0, false) := by decide
/-- L2.2. -/
theorem test_stop_status :
    (afterWord 0x02000000 { State.reset with enabled := true, line := 100, tickPending := true }).map status =
      some 0x00640072 := by decide
/-- L2.2. -/
theorem test_pause : (afterWord 0x03000000 State.reset).map (fun t => (status t).getLsbD 1) = some false := by decide
/-- L2.2. -/
theorem test_resume :
    (afterWord 0x04000000 { State.reset with running := false }).map (·.running) = some true := by decide
/-- L2.2. -/
theorem test_nop : afterWord 0x00000000 State.reset = some State.reset := by decide
/-- L2.2: the stated no-op of a reserved opcode (log 12). -/
theorem test_reserved_no_effect : afterWord 0x05000000 State.reset = some State.reset := by decide
/-- R106's example, and L2.3. -/
theorem test_setprop : (afterWord 0x1003000A State.reset).map (·.lpt) = some [(10, 0x03)] := by decide
/-- L1.2: SETPROP 480 has no effect. -/
theorem test_setprop_blanking : (afterWord 0x100301E0 State.reset).map (·.lpt) = some [] := by decide
/-- R107's example: the first entry step, and that two more are left. -/
theorem test_setprops_first_entry :
    (afterWord 0x1101FFFB (small [] 0 0x00000003)).map (fun t => (t.lpt, t.hop)) =
      some ([(0, 0x01)], .props 1 3 0x01) := by decide
/-- L2.3: S > E is empty. -/
theorem test_setprops_empty : (afterWord 0x1102000A (small [] 0 0x00000005)).map (·.lpt) = some [] := by decide
/-- L2.3: MASK is ignored. -/
theorem test_getprop :
    (afterWord 0x12FF000A { State.reset with lpt := [(10, 0x03)] }).map (·.result) = some 0x00000003 := by decide
/-- L1.2: GETPROP -1 reads 0. -/
theorem test_getprop_negative :
    (afterWord 0x1200FFFF { State.reset with result := 7 }).map (·.result) = some 0 := by decide
/-- R113's example. -/
theorem test_putpix_set : (afterWord 0x20000001 (small [(0, 0x00)] 0x00000003 0)).map (·.fb) = some [(0, 0x10)] := by decide
/-- L1.5: the last pixel; L2.4's XOR form. -/
theorem test_putpix_last :
    (afterWord 0x20020001 (small [(30719, 0xFE)] 0x01DF01FF 0)).map (·.fb) = some [(30719, 0xFF)] := by decide
/-- L2.4. -/
theorem test_putpix8_xor : (afterWord 0x210200FF (small [(65, 0xF0)] 0x00010001 0)).map (·.fb) = some [(65, 0x0F)] := by decide
/-- L2.4: column 64 does not spill into row 1. -/
theorem test_putpix8_no_spill : (afterWord 0x210000A5 (small [(64, 0)] 0x00000040 0)).map (·.fb) = some [(64, 0)] := by decide
/-- L2.4: the four byte steps of PUTPIX32 at (15, 479). -/
theorem test_putpix32_bytes :
    (afterWord 0x22000000 (small [(30716, 0), (30717, 0), (30718, 0), (30719, 0)] 0x01DF000F 0x12345678)).map
      (fun t => (finishHop t).fb) = some [(30716, 0x12), (30717, 0x34), (30718, 0x56), (30719, 0x78)] := by decide
/-- L2.4: word column 16 is out of range. -/
theorem test_putpix32_out_of_range :
    (afterWord 0x22000000 (small [] 0x00000010 0xFFFFFFFF)).map (fun t => (t.fb, t.hop)) = some ([], .none) := by decide
/-- L2.4. -/
theorem test_getpix : (afterWord 0x24000000 (small [(0, 0x10)] 0x00000003 0)).map (·.result) = some 1 := by decide
/-- L2.4: GETPIX at (-1, 0). -/
theorem test_getpix_out_of_range :
    (afterWord 0x24000000 { small [(0, 0xFF)] 0x0000FFFF 0 with result := 5 }).map (·.result) = some 0 := by decide
/-- L2.4. -/
theorem test_getpix8 : (afterWord 0x25000000 (small [(65, 0x0F)] 0x00010001 0)).map (·.result) = some 0x0F := by decide
/-- L2.4. -/
theorem test_getpix32 :
    (afterWord 0x26000000 (small [(0, 0x80), (1, 0), (2, 0), (3, 0x01)] 0 0)).map (·.result) = some 0x80000001 := by decide
/-- R119: the first byte step, and where the next one goes. -/
theorem test_fill_first_byte :
    (afterWord 0x300000AA State.reset).map (fun t => (t.fb, t.hop)) = some ([(0, 0xAA)], .fill 1 0xAA) := by decide
/-- R119: the last byte step. -/
theorem test_fill_last_byte :
    (hopStep { State.reset with hop := .fill 30719 0x5A }).fb = [(30719, 0x5A)] ∧
      (hopStep { State.reset with hop := .fill 30719 0x5A }).hop = .none := by decide
/-- L2.5. -/
theorem test_fbRd8 : (after (.fbRd8 0x40) (small [(0x40, 0x81)] 0 0)).map (·.rdata) = some 0x00000081 := by decide
/-- L2.5: the aperture tail. -/
theorem test_fbRd8_tail : (after (.fbRd8 0x7800) State.reset).map (·.rdata) = some 0 := by decide
/-- L2.5. -/
theorem test_fbWr8 : (after (.fbWr8 0 0xFF) State.reset).map (·.fb) = some [(0, 0xFF)] := by decide
/-- L2.5: the aperture tail. -/
theorem test_fbWr8_tail : (after (.fbWr8 0x7800 0x55) State.reset).map (·.fb) = some [] := by decide
/-- L2.5. -/
theorem test_fbRd32 :
    (after (.fbRd32 0) (small [(0, 0x80), (1, 0), (2, 0), (3, 0x01)] 0 0)).map (·.rdata) = some 0x01000080 := by decide
/-- L2.5: misaligned. -/
theorem test_fbRd32_misaligned : (after (.fbRd32 2) State.reset).map (·.rdata) = some 0 := by decide
/-- L2.5. -/
theorem test_fbWr32 :
    (after (.fbWr32 4 0x000000FF) State.reset).map (fun t => (finishHop t).fb) =
      some [(4, 0xFF), (5, 0), (6, 0), (7, 0)] := by decide
/-- L2.5: misaligned. -/
theorem test_fbWr32_misaligned : after (.fbWr32 2 0xFFFFFFFF) State.reset = some State.reset := by decide
/-- L2.5. -/
theorem test_wrXy_reads_back :
    ((after (.wrXy 0x01DF01FF) State.reset).bind (after .rdXy)).map (·.rdata) = some 0x01DF01FF := by decide
/-- R130's example. -/
theorem test_wrData_reads_back :
    ((after (.wrData 0x80000001) State.reset).bind (after .rdData)).map (·.rdata) = some 0x80000001 := by decide
/-- L2.5. -/
theorem test_rdCmd : (after .rdCmd { State.reset with rdata := 9 }).map (·.rdata) = some 0 := by decide
/-- R131. -/
theorem test_rdResult : (after .rdResult { State.reset with result := 0x80 }).map (·.rdata) = some 0x80 := by decide
/-- L2.5: a byte write to CMD does not start the engine. -/
theorem test_regByte : after (.regByte true 0) State.reset = some State.reset := by decide
/-- L2.5: a write to RESULT is ignored. -/
theorem test_regOther32 :
    (after (.regOther32 true 0x000C) { State.reset with result := 0x80 }).map (·.result) = some 0x80 := by decide

/-! ## The other agents -/

/-- A running engine between ticks, about to take the given turns. -/
def ticking (line : BitVec 10) (b : BufSel) (v : VTarget) (turns : List Agent) : State :=
  { State.reset with enabled := true, line := line, bufsel := b, vtarget := v, tickPending := true, sched := turns }

/-- L2.1: phase 1 of line 490, the falling edge of VSYNC. -/
theorem test_phase_one_vsync_falls :
    (next (ticking 490 .blank .vbegin [.seq])).map (fun t => (t.trace, t.vsyncN, t.phase)) =
      some ([.hs false, .col 0, .hs true, .vs false], false, .waitSer) := by decide
/-- R83's example: LINE = 5, LPT[5] = 0x02. -/
theorem test_phase_one_colour :
    (next { ticking 5 (.row 5) .vend [.seq] with lpt := [(5, 0x02)] }).map (·.trace) =
      some [.hs false, .col 0b10, .hs true, .vs true] := by decide
/-- L2.1: phase 2 of line 489 schedules VSYNC and sends a blank line. -/
theorem test_phase_two_schedules :
    (next { ticking 489 .blank .vend [.seq] with phase := .waitSer }).map
      (fun t => (t.line, t.vtarget, t.bufsel, t.trace)) =
      some (490, .vbegin, .blank, [.prep 489 blankRow, .xmit, .ka]) := by decide
/-- L2.1: line 524 wraps, in a paused tick (SER_BUSY is not examined). -/
theorem test_phase_two_wraps :
    (next { ticking 524 .blank .vend [.seq] with phase := .waitSer, running := false, serBusy := true }).map
      (fun t => (t.line, t.bufsel, t.trace, t.serBusy)) = some (0, .row 0, [.ka], true) := by decide
/-- L2.1, busy hold: phase 2 waits, and HOST's write waits behind it. -/
theorem test_busy_hold :
    (next { ticking 0 (.row 0) .vend [.seq] with phase := .waitSer, serBusy := true, serLive := true }).map (·.phase) =
        some .waitSer ∧
      (next { ticking 0 (.row 0) .vend [.host] with phase := .waitSer, bus := [Asm.wr8 0 0xFF] }).map (·.fb) = some [] := by
  decide
/-- L2.1: requests coalesce; a stopped engine has none. -/
theorem test_timer :
    (next { State.reset with enabled := true, sched := [.tmr] }).map (·.tickPending) = some true ∧
      (next { State.reset with sched := [.tmr] }).map (·.tickPending) = some false := by decide
/-- L2.4, torn PUTPIX32: after byte steps 0 and 1 a tick's row 0 holds FF FF 00 00. -/
theorem test_torn_word :
    (afterWord 0x22000000 (small [(0, 0), (1, 0), (2, 0), (3, 0)] 0 0xFFFFFFFF)).map (fun t => (hopStep t).fb) =
      some [(0, 0xFF), (1, 0xFF), (2, 0), (3, 0)] := by decide
/-- L2.6: reset during a FILL and inside a tick. -/
theorem test_reset_abandons :
    (next { ticking 7 (.row 7) .vend [.rst] with phase := .waitSer, hop := .fill 100 0xFF, lpt := [(5, 1)] }).map
      (fun t => (t.hop, t.phase, t.enabled, t.lpt.isEmpty, t.trace.isEmpty)) = some (.none, .idle, false, true, true) := by
  decide
/-- R78, R79: the words of the pseudo-instructions, from the programs of L3. -/
theorem test_assembly :
    Asm.putpix .or 511 479 1 = [⟨0x38004, 0x01DF01FF⟩, ⟨0x38000, 0x20010001⟩] ∧
      Asm.setprops (-5) 3 0x03 = [⟨0x38008, 0x00000003⟩, ⟨0x38000, 0x1103FFFB⟩] ∧
      Asm.rd8 0x77FF = ⟨0x077FF, 0⟩ ∧ Asm.rdstatus = [⟨0x18010, 0⟩] := by decide
/-- The host's question: the word of a table row, placed, is run by the next step. -/
theorem test_fetch_word :
    (next (State.reset.withFetchWord 32 0x01000000)).map (·.enabled) = some true ∧
      (next (State.reset.withFetchWord 24 0x18010)).map (·.rdata) = some 0x00000072 := by decide

/-! ## Witnesses: for each statement with hypotheses, values that meet them, each clause at a boundary -/

/-- HOST is about to issue `t`. -/
def issuing (t : Transaction) (s : State) : State := { s with sched := [.host], bus := [t] }

/-- DecodeOfEncodeIsTheInstruction: an ordinary instruction and the two catch-all rows. -/
theorem witness_DecodeOfEncode :
    WellFormed (.setprop 0xFF 0xFFFF) = true ∧ WellFormed (.reservedOpc 0xFF) = true ∧
      WellFormed (.regOther32 false 0x0014) = true := by decide

/-- TransactionTableRowsDecode: the last two clauses, next to the named offsets. -/
theorem witness_TransactionTableRows :
    (0x000C#15 ∉ [0x0000#15, 0x0004#15, 0x0008#15]) ∧
      (0x0014#15 ∉ [0x0000#15, 0x0004#15, 0x0008#15, 0x000C#15, 0x0010#15]) := by decide

/-- ReservedOpcodesAreConsumedWithNoEffect: both ends of every range of R74. -/
theorem witness_ReservedOpcodes :
    ∀ opc ∈ [0x05#8, 0x0F#8, 0x13#8, 0x1F#8, 0x23#8, 0x27#8, 0x2F#8, 0x31#8, 0xFF#8],
      opcodeOf (cmdOpc (opc ++ 0#24)) = none := by decide

/-- HostTurnRunsTheDecodedTransaction. -/
theorem witness_HostTurnRuns : ∃ (s : State) (agents : List Agent) (t : Transaction) (rest : List Transaction),
    s.sched = .host :: agents ∧ s.bus = t :: rest ∧ s.phase = .idle ∧ s.hop = .none :=
  ⟨issuing (Asm.wr8 0 0xFF) State.reset, [], _, [], rfl, rfl, rfl, rfl⟩

/-- PlacedTableWordRunsNext: both widths of the table, at the ends of their ranges. -/
theorem witness_PlacedTableWord :
    decodeTableWord 18 0x3FFFF = some (.regOther32 true 0x7FFF) ∧ decodeTableWord 24 0 = some (.fbRd8 0) ∧
      decodeTableWord 32 0xFFFFFFFF = some (.reservedOpc 0xFF) := by decide

/-- HostTurnContinuesTheOperationInFlight. -/
theorem witness_HostTurnContinues : ∃ (s : State) (agents : List Agent),
    s.sched = .host :: agents ∧ s.phase = .idle ∧ s.hop ≠ .none :=
  ⟨{ State.reset with sched := [.host], hop := .fill 30719 0 }, [], rfl, rfl, by decide⟩

/-- HostHoldsWhileATickIsInProgress. -/
theorem witness_HostHolds : ∃ (s : State) (agents : List Agent), s.sched = .host :: agents ∧ s.phase = .waitSer :=
  ⟨{ State.reset with sched := [.host], phase := .waitSer }, [], rfl, rfl⟩

/-- SetpropWritesOneVisibleEntry: its value's condition at both ends, and just outside. -/
theorem witness_Setprop :
    (0 ≤ s16 0 ∧ s16 0 < 480) ∧ (0 ≤ s16 479 ∧ s16 479 < 480) ∧ ¬(s16 480 < 480) ∧ ¬(0 ≤ s16 0xFFFF) := by decide

/-- SetpropsWritesTheClampedRangeInOrder: the empty clause at S = E, the other at a range of one line and over all lines. -/
theorem witness_Setprops :
    (∃ lo hi : Int, lo = max 0 (s16 7) ∧ hi = min (s16 ((small [] 0 7).data.extractLsb' 0 16)) 480 ∧ ¬(lo < hi)) ∧
      (∃ lo hi : Int, lo = max 0 (s16 479) ∧ hi = min (s16 ((small [] 0 480).data.extractLsb' 0 16)) 480 ∧ lo < hi) ∧
      (∃ lo hi : Int, lo = max 0 (s16 0x8000) ∧ hi = min (s16 ((small [] 0 0x7FFF).data.extractLsb' 0 16)) 480 ∧
        lo = 0 ∧ hi = 480) ∧ State.reset.lpe = true := by
  refine ⟨⟨_, _, rfl, rfl, by decide⟩, ⟨_, _, rfl, rfl, by decide⟩, ⟨_, _, rfl, rfl, by decide⟩, rfl⟩

/-- SetpropThenGetpropGivesTheMask: the last visible line. -/
theorem witness_SetpropThenGetprop : State.reset.lpe = true ∧ 0 ≤ s16 479 ∧ s16 479 < 480 := by decide

/-- WithoutLinePropsTheFeatureIsAbsent, with its inner hypotheses. -/
theorem witness_WithoutLineProps : ∃ s t : State, s.lpe = false ∧ lpeOk s ∧ hopOk s ∧ step s = .next t :=
  ⟨issuing (Asm.cmd 0x10030000) { State.reset with lpe := false }, _, rfl, by decide, trivial, rfl⟩

/-- CombineIsBitwisePerLane: nothing to update. -/
theorem witness_Combine : (0xF0#8 &&& 0x0F#8) = 0 := by decide

/-- PutpixUpdatesOneBit, GetCommandsReadTheFramebuffer: the corner pixel (511, 479), the byte and the bit it lies in. -/
theorem witness_Putpix : ∃ x y : Int, x = s16 ((small [] 0x01DF01FF 0).xy.extractLsb' 0 16) ∧
    y = s16 ((small [] 0x01DF01FF 0).xy.extractLsb' 16 16) ∧ 0 ≤ x ∧ x < 512 ∧ 0 ≤ y ∧ y < 480 ∧
    64 * y + x / 8 = 30719 ∧ 7 - x % 8 = 0 := ⟨_, _, rfl, rfl, by decide⟩

/-- Putpix8CombinesOneByte: the corner byte (63, 479). -/
theorem witness_Putpix8 : ∃ x y : Int, x = s16 ((small [] 0x01DF003F 0).xy.extractLsb' 0 16) ∧
    y = s16 ((small [] 0x01DF003F 0).xy.extractLsb' 16 16) ∧ 0 ≤ x ∧ x < 64 ∧ 0 ≤ y ∧ y < 480 ∧ 64 * y + x = 30719 :=
  ⟨_, _, rfl, rfl, by decide⟩

/-- Putpix32CombinesFourBytesInOrder: the corner word (15, 479), and word column 16 for the other clause. -/
theorem witness_Putpix32 :
    (∃ x y : Int, x = s16 ((small [] 0x01DF000F 0).xy.extractLsb' 0 16) ∧
      y = s16 ((small [] 0x01DF000F 0).xy.extractLsb' 16 16) ∧ 0 ≤ x ∧ x < 16 ∧ 0 ≤ y ∧ y < 480) ∧
    (∃ x : Int, x = s16 ((small [] 0x00000010 0).xy.extractLsb' 0 16) ∧ ¬(x < 16)) :=
  ⟨⟨_, _, rfl, rfl, by decide⟩, ⟨_, rfl, by decide⟩⟩

/-- PutpixThenGetpixGivesThePixel: all four corners. -/
theorem witness_PutpixThenGetpix :
    ∀ xy ∈ [0x00000000#32, 0x000001FF#32, 0x01DF0000#32, 0x01DF01FF#32],
      (pixelIndex (opX (small [] xy 0)) (opY (small [] xy 0))).isSome = true := by
  intro xy h
  fin_cases h <;> rfl

/-- PixelByteAndWordViewsAgree, ByteSwappedRawWriteEqualsPutpix32, GetpixLineAnswersTheByte: the corner pixel, word, byte. -/
theorem witness_Views : (511 < 512 ∧ 479 < 480) ∧ (15 < 16 ∧ State.reset.hop = .none) ∧ 63 < 64 := by decide

/-- RawReadsAnswerFramebufferBytes, RawByteWriteStoresOneByte: both sides of the end of the framebuffer. -/
theorem witness_RawReads :
    (0x77FF#15).toNat < 30720 ∧ ¬((0x7800#15).toNat < 30720) ∧
      ¬((0x77FC#15).toNat % 4 ≠ 0 ∨ (0x77FC#15).toNat + 3 ≥ 30720) ∧ (0x77FE#15).toNat % 4 ≠ 0 := by decide

/-- RawWordWriteStoresFourBytesInOrder: the last word; a misaligned one; the tail. -/
theorem witness_RawWordWrite :
    ((0x77FC#15).toNat % 4 = 0 ∧ (0x77FC#15).toNat + 3 < 30720) ∧ ¬((0x0002#15).toNat % 4 = 0) ∧
      ¬((0x7800#15).toNat + 3 < 30720) := by decide

/-- UnansweredRegisterAccessHasNoEffect: both clauses: writes of RESULT and STATUS, the first and the last reserved offset,
a misaligned one; byte accesses at both ends. -/
theorem witness_Unanswered :
    (btReg 0x3800C = true ∧ btSz 0x3800C = true ∧ btReg 0x38010 = true ∧ btSz 0x38010 = true ∧ btReg 0x18014 = true ∧
      btSz 0x18014 = true ∧ btReg 0x1FFFF = true ∧ btSz 0x1FFFF = true ∧ btReg 0x38002 = true ∧ btSz 0x38002 = true) ∧
    (∀ bt ∈ [0x3800C#18, 0x38010#18, 0x18014#18, 0x1FFFF#18, 0x38002#18],
      bt ∉ [0x38000#18, 0x38004#18, 0x38008#18, 0x18000#18, 0x18004#18, 0x18008#18, 0x1800C#18, 0x18010#18]) ∧
    (btReg 0x28000 = true ∧ btSz 0x28000 = false ∧ btReg 0x2FFFF = true ∧ btSz 0x2FFFF = false) := by
  refine ⟨by decide, fun bt h => ?_, by decide⟩
  simp only [List.mem_cons, List.not_mem_nil, or_false] at h
  rcases h with rfl | rfl | rfl | rfl | rfl <;> simp

/-- OutOfContractHasNoEffect: one input of each of S1 to S6, and each form that reads. -/
theorem witness_OutOfContract :
    ∀ i ∈ [Instr.wrCmd 0x05000000, .putpix .reserved 1, .fbRd32 2, .regByte true 0, .fbWr8 0x7800 0,
      .regOther32 true 0x0010, .fbRd8 0x7800, .regByte false 0, .regOther32 false 0x0014], inContract i = false := by decide

/-- TimerRequestsOneTick. -/
theorem witness_Timer : (ticking 0 (.row 0) .vend [.tmr]).sched = [.tmr] := rfl

/-- PhaseOneDrivesSync: a tick starts on the first and on the last line. -/
theorem witness_PhaseOne :
    ∀ s ∈ [ticking 0 (.row 0) .vend [.seq], ticking 524 .blank .vend [.seq]],
      s.sched = [.seq] ∧ s.phase = .idle ∧ s.enabled = true ∧ s.tickPending = true := by decide

/-- PhaseTwoTransfersAndAdvances: the transfer and the hold. -/
theorem witness_PhaseTwo :
    (∃ s : State, s.sched = [.seq] ∧ s.phase = .waitSer ∧ serHandshake s ∧ s.running = true ∧ s.serBusy = false) ∧
    (∃ s : State, s.sched = [.seq] ∧ s.phase = .waitSer ∧ serHandshake s ∧ s.running = true ∧ s.serBusy = true) :=
  ⟨⟨{ ticking 479 (.row 479) .vend [.seq] with phase := .waitSer }, by decide⟩,
    ⟨{ ticking 479 (.row 479) .vend [.seq] with phase := .waitSer, serBusy := true, serLive := true }, by decide⟩⟩

/-- TransferHandsOverTheSelectedRow: both clauses. -/
theorem witness_Transfer :
    (ticking 479 (.row 479) .vend []).bufsel = .row 479 ∧ (ticking 480 .blank .vend []).bufsel = .blank := by decide

/-- CompleteTickEmitsItsTrace: a tick that waits for the serializer; and a turn of another agent. -/
theorem witness_CompleteTick :
    (∃ (s : State) (between : List Agent), s.sched = .seq :: (between ++ [.seq]) ∧
      (∀ a ∈ between, a = .host ∨ a = .tmr ∨ a = .ser) ∧ s.phase = .idle ∧ s.enabled = true ∧ s.tickPending = true ∧
      serHandshake s ∧ s.running = true ∧ s.serBusy = true ∧ .ser ∈ between) ∧
    (∃ s t : State, nextAgent s ≠ .seq ∧ step s = .next t) :=
  ⟨⟨{ ticking 3 (.row 3) .vend [.seq, .host, .ser, .tmr, .seq] with serBusy := true, serLive := true },
      [.host, .ser, .tmr], by decide⟩,
    ⟨ticking 3 (.row 3) .vend [.tmr], _, by decide, rfl⟩⟩

/-- StepKeepsTheCursorOnItsLine: the lines where VTARGET changes, and the wrap. -/
theorem witness_StepKeepsTheCursor :
    (∃ s t : State, cursorOk s ∧ s.line = 489 ∧ step s = .next t ∧ t.line = 490) ∧
    (∃ s t : State, cursorOk s ∧ s.line = 491 ∧ step s = .next t ∧ t.line = 492) ∧
    (∃ s t : State, cursorOk s ∧ s.line = 524 ∧ step s = .next t ∧ t.line = 0) :=
  ⟨⟨{ ticking 489 .blank .vend [.seq] with phase := .waitSer }, _, by decide, rfl, rfl, by decide⟩,
    ⟨{ ticking 491 .blank .vbegin [.seq] with phase := .waitSer }, _, by decide, rfl, rfl, by decide⟩,
    ⟨{ ticking 524 .blank .vend [.seq] with phase := .waitSer }, _, by decide, rfl, rfl, by decide⟩⟩

/-- A running engine on line 0 with any turns to come and nothing left for HOST to issue. -/
theorem started (turns : List Agent) : ∃ s : State, (cursorOk s ∧ serHandshake s ∧ s.phase = .idle ∧ s.enabled = true ∧
    s.sched = turns) ∧ s.bus = [] :=
  ⟨ticking 0 (.row 0) .vend turns, ⟨⟨by show (0 : Nat) < 525; decide, rfl, by
      show VTarget.vend = .vbegin ↔ 490 ≤ 0 ∧ 0 < 492
      decide⟩, rfl, rfl, rfl, rfl⟩, rfl⟩

/-- CursorIsPeriodicInTheTickCount: a run over the end of a tick; and a whole frame from line 0 with HOST's turns in it. -/
theorem witness_CursorIsPeriodic :
    (∃ s t : State, cursorOk s ∧ Host.Core.run Sys2Proof.core 1 s = .next t ∧
      (∀ (j : Nat) (u : State), j < 1 → Host.Core.run Sys2Proof.core j s = .next u →
        nextAgent u ≠ .rst ∧ issued u ≠ some .start) ∧ ticksDone t.trace = ticksDone s.trace + 1) ∧
    (∃ s : State, (cursorOk s ∧ serHandshake s ∧ s.phase = .idle ∧ s.enabled = true ∧
      s.sched = ((List.replicate 525 ([Agent.host, .tmr], [Agent.ser, .host])).map tickTurns).flatten ++ []) ∧
      (∀ b ∈ s.bus, commandOf (decodeBus b) ≠ .start ∧ commandOf (decodeBus b) ≠ .stop) ∧
      ∀ p ∈ List.replicate 525 ([Agent.host, .tmr], [Agent.ser, .host]),
        (∀ a ∈ p.1 ++ p.2, a = .host ∨ a = .tmr ∨ a = .ser) ∧ .tmr ∈ p.1 ∧ .ser ∈ p.1 ++ p.2) := by
  refine ⟨⟨{ ticking 524 .blank .vend [.seq] with phase := .waitSer }, _, by decide, rfl, fun j u hj hu => ?_, by decide⟩,
    ?_⟩
  · obtain rfl : j = 0 := by omega
    obtain rfl := Host.Outcome.next.inj hu
    decide
  · obtain ⟨s, h, hb⟩ :=
      started (((List.replicate 525 ([Agent.host, .tmr], [Agent.ser, .host])).map tickTurns).flatten ++ [])
    refine ⟨s, h, by simp [hb], fun p hp => ?_⟩
    obtain rfl := List.eq_of_mem_replicate hp
    decide

/-- TickOutputIsAFunctionOfItsLine: a legal state on each line where R93's table changes. -/
theorem witness_TickOutput :
    ∀ s ∈ [ticking 479 (.row 479) .vend [.seq, .seq], ticking 480 .blank .vend [.seq, .seq],
        ticking 490 .blank .vbegin [.seq, .seq], ticking 492 .blank .vend [.seq, .seq]],
      (Memory.wf s.fb ∧ Memory.lptWf s.lpt ∧ cursorOk s ∧ s.hop = .none ∧ lpeOk s ∧ stoppedOk s ∧ serHandshake s ∧
        s.hsyncN = true ∧ s.serBuf.length = Config.bwidth) ∧
      s.sched = [.seq, .seq] ∧ s.phase = .idle ∧ s.enabled = true ∧ s.tickPending = true ∧ s.serBusy = false := by decide

/-- SerializerCompletionDropsBusy. -/
theorem witness_SerializerCompletion : ∃ s : State, s.sched = [.ser] ∧ s.serBusy = true :=
  ⟨{ ticking 0 (.row 0) .vend [.ser] with serBusy := true, serLive := true }, rfl, rfl⟩

/-- PrepIsIssuedOnlyToAFreeSerializer: a step that issues one. -/
theorem witness_Prep : ∃ s t : State, step s = .next t ∧ preps t.trace ≠ preps s.trace :=
  ⟨{ ticking 480 .blank .vend [.seq] with phase := .waitSer }, _, rfl, by decide⟩

/-- SerializerThatNeverCompletesHangsTheEngine. -/
theorem witness_Hang : ∃ (turns : List Agent) (s : State), s.phase = .waitSer ∧ s.running = true ∧ s.serBusy = true ∧
    s.sched = turns ++ [] ∧ turns ≠ [] ∧ ∀ a ∈ turns, a = .host ∨ a = .seq ∨ a = .tmr :=
  ⟨[.host, .seq, .tmr, .seq],
    { ticking 0 (.row 0) .vend [.host, .seq, .tmr, .seq] with phase := .waitSer, serBusy := true, serLive := true }, rfl,
    rfl, rfl, rfl, by decide, by decide⟩

/-- PrepIntoALiveTransferFaults. -/
theorem witness_PrepIntoALiveTransfer : ∃ s : State, s.sched = [.seq] ∧ s.phase = .waitSer ∧ s.running = true ∧
    s.serBusy = false ∧ s.serLive = true :=
  ⟨{ ticking 0 (.row 0) .vend [.seq] with phase := .waitSer, serLive := true }, rfl, rfl, rfl, rfl, rfl⟩

/-- EngineNeverStopsUnderTheHandshake. -/
theorem witness_EngineNeverStops : serHandshake State.reset := rfl

/-- OnlyTheirWritersChangeHostRegisters: a step that changes each register. -/
theorem witness_HostRegisterWriters :
    (∃ s t : State, step s = .next t ∧ nextAgent s ≠ .rst ∧ t.xy ≠ s.xy) ∧
    (∃ s t : State, step s = .next t ∧ nextAgent s ≠ .rst ∧ t.data ≠ s.data) ∧
    (∃ s t : State, step s = .next t ∧ nextAgent s ≠ .rst ∧ t.result ≠ s.result) :=
  ⟨⟨issuing (Asm.setxy 479 511) State.reset, _, rfl, by decide, by decide⟩,
    ⟨issuing (Asm.setdata 1) State.reset, _, rfl, by decide, by decide⟩,
    ⟨issuing (Asm.cmd 0x12000000) { State.reset with lpt := [(0, 1)] }, _, rfl, by decide, by decide⟩⟩

/-- OnlyTheirWritersChangeControlAndCursor: a step for each clause; the cursor by START and by phase 2. -/
theorem witness_ControlWriters :
    (∃ s t : State, step s = .next t ∧ nextAgent s ≠ .rst ∧ t.enabled ≠ s.enabled) ∧
    (∃ s t : State, step s = .next t ∧ nextAgent s ≠ .rst ∧ t.running ≠ s.running) ∧
    (∃ s t : State, step s = .next t ∧ nextAgent s = .host ∧ t.line ≠ s.line) ∧
    (∃ s t : State, step s = .next t ∧ nextAgent s = .seq ∧ t.line ≠ s.line) :=
  ⟨⟨issuing (Asm.cmd 0x01000000) State.reset, _, rfl, by decide, by decide⟩,
    ⟨issuing (Asm.cmd 0x03000000) State.reset, _, rfl, by decide, by decide⟩,
    ⟨issuing (Asm.cmd 0x01000000) (ticking 7 (.row 7) .vend []), _, rfl, by decide, by decide⟩,
    ⟨{ ticking 480 .blank .vend [.seq] with phase := .waitSer }, _, rfl, by decide, by decide⟩⟩

/-- NoTransactionWritesTheCursorButStart: another transaction, and START. -/
theorem witness_NoTransactionWritesTheCursor :
    (∃ s t : State, exec (decodeBus (Asm.wr32 0x8010 0xFFFFFFFF)) s = .next t) ∧
    (∃ s t : State, exec (decodeBus (Asm.cmd 0x01000000)) s = .next t ∧ t.line ≠ s.line) :=
  ⟨⟨State.reset, _, rfl⟩, ⟨ticking 7 (.row 7) .vend [], _, rfl, by decide⟩⟩

/-- OnlyHostWritesFramebufferAndTable: a step that changes each. -/
theorem witness_StorageWriters :
    (∃ s t : State, step s = .next t ∧ nextAgent s ≠ .rst ∧ t.fb ≠ s.fb) ∧
    (∃ s t : State, step s = .next t ∧ nextAgent s ≠ .rst ∧ t.lpt ≠ s.lpt) :=
  ⟨⟨issuing (Asm.wr8 0x77FF 1) State.reset, _, rfl, by decide, by decide⟩,
    ⟨issuing (Asm.cmd 0x100101DF) State.reset, _, rfl, by decide, by decide⟩⟩

/-- OutputsChangeOnlyInPhaseOne. -/
theorem witness_Outputs : ∃ s t : State, step s = .next t ∧ t.vsyncN ≠ s.vsyncN :=
  ⟨ticking 490 .blank .vbegin [.seq], _, rfl, by decide⟩

/-- StoppedEngineIsQuietUntilStart. -/
theorem witness_StoppedEngine : ∃ s t : State, s.enabled = false ∧ s.phase = .idle ∧ step s = .next t ∧
    nextAgent s ≠ .rst ∧ issued s ≠ some .start :=
  ⟨issuing (Asm.cmd 0x04000000) State.reset, _, rfl, rfl, rfl, by decide, by decide⟩

/-- PausedEngineSendsNoLine: phase 2 of a paused tick. -/
theorem witness_PausedEngine : ∃ s t : State, s.running = false ∧ step s = .next t ∧ nextAgent s ≠ .rst ∧
    issued s ≠ some .resume ∧ s.phase = .waitSer :=
  ⟨{ ticking 7 (.row 7) .vend [.seq] with phase := .waitSer, running := false }, _, rfl, rfl, by decide, by decide, rfl⟩

/-- SyncIsIndependentOfTheFramebuffer: two states that differ. -/
theorem witness_SyncIsIndependent : ∃ s s' t : State, s ≠ s' ∧ syncView s = syncView s' ∧ step s = .next t :=
  ⟨{ ticking 0 (.row 0) .vend [.seq] with fb := [(0, 1)] }, ticking 0 (.row 0) .vend [.seq], _, by decide, rfl, rfl⟩

/-- StepKeepsStatesLegal, BlankingEntriesAreZero: a legal state on a blanking line, and a step. -/
theorem witness_StepKeepsStatesLegal : ∃ s t : State, legal s ∧ s.lpe = true ∧ 480 ≤ s.line.toNat ∧ step s = .next t :=
  ⟨ticking 480 .blank .vend [.seq], _,
    ⟨by decide, by decide, by decide, trivial, by decide, by decide, by decide, by decide, by decide⟩, rfl, by decide, rfl⟩

/-- ResetPutsEveryStateAtItsValue: inside a tick, with an operation in flight. -/
theorem witness_Reset : ∃ s : State, s.sched = [.rst] ∧ s.phase = .waitSer ∧ s.hop ≠ .none :=
  ⟨{ ticking 0 (.row 0) .vend [.rst] with phase := .waitSer, hop := .fill 1 0 }, rfl, rfl, by decide⟩

/-- GetpixLineAnswersTheByte: the corner byte. -/
theorem witness_GetpixLine : ∃ (s : State) (rest : List Transaction), s.phase = .idle ∧ s.hop = .none ∧
    s.sched = [.host, .host, .host] ∧ s.bus = Asm.getpix8 (63 : Nat) (479 : Nat) ++ rest :=
  ⟨{ State.reset with sched := [.host, .host, .host], bus := Asm.getpix8 (63 : Nat) (479 : Nat) }, [], rfl, rfl, rfl, by simp⟩

end Sys2Proof.Tests
end

/-! PROOFS. The statements of 10_state.md: the legal states are kept, and who writes which piece of the state. -/

namespace Sys2Proof.Machine

open Sys2Proof.Safety

/-! ## Legal states over the named updates -/

section
variable {s : State}

/-- R37: a framebuffer write inside the framebuffer. -/
theorem legal_fbWrite {a : Nat} (v : Byte) (hs : legal s) (ha : a < Config.fbBytes) : legal (fbWrite a v s) := by
  obtain ⟨hfb, hrest⟩ := hs
  exact ⟨wf_fbWrite hfb ha, hrest⟩

/-- R38, R109, R110: an entry write of a visible line, in a build with line properties. -/
theorem legal_lptWrite {l : Nat} (v : Byte) (hs : legal s) (hlpe : s.lpe = true) (hl : l < Config.visibleLines) :
    legal (lptWrite l v s) := by
  obtain ⟨hfb, hlpt, hcursor, hhop, -, hrest⟩ := hs
  exact ⟨hfb, lptWf_lptWrite hlpt hl, hcursor, hhop, fun h => absurd (h.symm.trans hlpe) (by decide), hrest⟩

/-- R43: only HOP's own condition is at stake when HOP is written. -/
theorem legal_setHop {h : Hop} (hs : legal s) (hhop : hopOk (setHop h s)) : legal (setHop h s) := by
  obtain ⟨hfb, hlpt, hcursor, -, hrest⟩ := hs
  exact ⟨hfb, hlpt, hcursor, hhop, hrest⟩

/-- R43: the operation in flight completes. -/
theorem legal_setHop_none (hs : legal s) : legal (setHop .none s) := legal_setHop hs trivial

/-- R43, R51: a step of the operation in flight writes inside its storage, and what is left of it stays inside. -/
theorem legal_hopStep (hs : legal s) : legal (hopStep s) := by
  have ⟨_, _, _, hhop, _⟩ := hs
  unfold hopOk at hhop
  rcases hopStep_cases s with ⟨e, -⟩ | ⟨mode, a, hh, e⟩ | ⟨mode, a, b, rest, hh, e⟩ | ⟨a, d8, hh, e⟩ |
      ⟨l, stop, mask, hh, e⟩ <;> rw [e]
  · exact hs
  · exact legal_setHop_none hs
  · rw [hh] at hhop
    obtain ⟨hmode, -, hlen⟩ := hhop
    rw [List.length_cons] at hlen
    have hw : legal (combineByte mode a b 0xFF#8 s) := legal_fbWrite _ hs (by omega)
    cases rest with
    | nil => exact legal_setHop_none hw
    | cons c rest => exact legal_setHop hw ⟨hmode, List.cons_ne_nil c rest, by omega⟩
  · rw [hh] at hhop
    have hw := legal_fbWrite d8 hs hhop
    split_ifs with hnext
    · exact legal_setHop hw hnext
    · exact legal_setHop_none hw
  · rw [hh] at hhop
    obtain ⟨hlpe, hlt, hstop⟩ := hhop
    have hw := legal_lptWrite mask hs hlpe (hlt.trans_le hstop)
    split_ifs with hnext
    · exact legal_setHop hw ⟨hlpe, hnext, hstop⟩
    · exact legal_setHop_none hw

/-- R50: an operation that starts inside its storage. -/
theorem legal_beginHop {h : Hop} (hs : legal s) (hhop : hopOk (setHop h s)) : legal (beginHop h s) :=
  legal_hopStep (legal_setHop hs hhop)

/-! ## Legal states over the instructions -/

/-- R92: the cursor of line 0, which START and a reset select. -/
theorem cursorOk_reset : cursorOk State.reset := by decide

/-- R102: START puts the cursor on line 0 and lets the timer run. -/
theorem legal_start (hs : legal s) :
    legal { s with enabled := true, line := 0#10, bufsel := .row 0, vtarget := .vend, tickPending := false } := by
  obtain ⟨hfb, hlpt, -, hhop, hlpe, -, hrest⟩ := hs
  exact ⟨hfb, hlpt, cursorOk_reset, hhop, hlpe, fun h => absurd h Bool.true_eq_false.mp, hrest⟩

/-- R103: a STOP between ticks leaves no request and no tick in progress. -/
theorem legal_stop (hs : legal s) (hp : s.phase = .idle) : legal { s with enabled := false, tickPending := false } := by
  obtain ⟨hfb, hlpt, hcursor, hhop, hlpe, -, hrest⟩ := hs
  exact ⟨hfb, hlpt, hcursor, hhop, hlpe, fun _ => ⟨rfl, hp⟩, hrest⟩

/-- Whatever an instruction does between ticks. -/
theorem Effect.legal {t : State} (h : Effect s t) (hs : Safety.legal s) (hp : s.phase = .idle) : Safety.legal t := by
  cases h with
  | start => exact legal_start hs
  | stop => exact legal_stop hs hp
  | lpt l v h => exact legal_lptWrite v hs h.1 h.2
  | fb a v h => exact legal_fbWrite v hs h
  | bytes mode a b0 b1 b2 b3 h => exact legal_beginHop hs ⟨h.1, List.cons_ne_nil _ _, h.2⟩
  | fill d8 => exact legal_beginHop hs (by decide : 0 < Config.fbBytes)
  | props lo hi mask h => exact legal_beginHop hs h
  | _ => exact hs

/-! ## Legal states over the other agents' moves -/

/-- R83: phase 1 of a running engine. -/
theorem legal_phase1 (hs : legal s) (he : s.enabled = true) : legal (phase1 s) := by
  obtain ⟨hfb, hlpt, hcursor, hhop, hlpe, -, hser, -, hbuf⟩ := hs
  rw [phase1_eq]
  refine ⟨hfb, hlpt, hcursor, hhop, fun h => ?_, fun h => absurd (h.symm.trans he) (by decide), hser, rfl, hbuf⟩
  obtain ⟨hempty, hcolor⟩ := hlpe h
  have hkeep : tickColor s = s.color := if_neg (by simp [show s.lpe = false from h])
  exact ⟨hempty, hkeep.trans hcolor⟩

/-- R88: the VSYNC schedule keeps VTARGET at BEGIN exactly on the lines 490 and 491. -/
theorem scheduledTarget_nextLine (hs : cursorOk s) : scheduledTarget (nextLine s) s.vtarget = .vbegin ↔
    Config.vsyncBeginLine ≤ nextLine s ∧ nextLine s < Config.vsyncEndLine := by
  obtain ⟨hline, -, hv⟩ := hs
  have hnext : nextLine s = (s.line.toNat + 1) % 525 := rfl
  simp only [scheduledTarget, Config.totalLines, Config.vsyncBeginLine, Config.vsyncEndLine] at *
  split_ifs with hend hbegin
  · simp [hend]
  · simp [hbegin]
  · rw [hv]
    omega

/-- R88, R89, R92: phase 2 moves the cursor to the cursor of the next line. -/
theorem cursorOk_phase2 (hs : cursorOk s) : cursorOk (phase2 s) := by
  rw [phase2_eq]
  simp only [cursorOk, toNat_nextLine]
  exact ⟨nextLine_lt s, trivial, scheduledTarget_nextLine hs⟩

/-- R86: phase 2. -/
theorem legal_phase2 (hs : legal s) : legal (phase2 s) := by
  obtain ⟨hfb, hlpt, hcursor, hhop, hlpe, hstop, hser, hsync, hbuf⟩ := hs
  have hcursor' := cursorOk_phase2 hcursor
  rw [phase2_eq] at hcursor' ⊢
  refine ⟨hfb, hlpt, hcursor', hhop, hlpe, fun h => ⟨(hstop h).1, rfl⟩, ?_, hsync, ?_⟩
  · exact congrArg (s.running || ·) hser
  · cases hr : s.running
    · exact hbuf
    · exact length_rowBytes s

/-- R82: a timer request of a running engine. -/
theorem legal_request (hs : legal s) (he : s.enabled = true) : legal { s with tickPending := true } := by
  obtain ⟨hfb, hlpt, hcursor, hhop, hlpe, -, hrest⟩ := hs
  exact ⟨hfb, hlpt, hcursor, hhop, hlpe, fun h => absurd (h.symm.trans he) (by decide), hrest⟩

/-- R95: the serializer's completion ends both sides of the handshake. -/
theorem legal_done (hs : legal s) : legal { s with serBusy := false, serLive := false } := by
  obtain ⟨hfb, hlpt, hcursor, hhop, hlpe, hstop, -, hrest⟩ := hs
  exact ⟨hfb, hlpt, hcursor, hhop, hlpe, hstop, rfl, hrest⟩

/-- R149, R150: a reset gives a legal state from any state. -/
theorem legal_resetMachine (s : State) : legal (resetMachine s) := by
  obtain ⟨hfb, hlpt⟩ := wf_reset
  exact ⟨hfb, hlpt, cursorOk_reset, trivial, fun _ => ⟨rfl, rfl⟩, fun _ => ⟨rfl, rfl⟩, rfl, rfl, rfl⟩

end

/-- What an instruction answers has one of the shapes of `Effect`. -/
theorem effect_of_exec {i : Instr} {s t : State} (h : exec i s = .next t) : Effect s t := by
  obtain ⟨t', h', he⟩ := exec_effect i s
  obtain rfl := Host.Outcome.next.inj (h.symm.trans h')
  exact he

/-- Every move keeps the legal states: taking the turn is seen by none of the nine conditions. -/
theorem legal_of_step {s t : State} (hs : legal s) (h : step s = .next t) : legal t := by
  obtain ⟨sched, turn, hm⟩ := step_cases h
  have hu : legal { s with sched := sched, turn := turn } := hs
  cases hm with
  | hold => exact hu
  | hop => exact legal_hopStep hu
  | issue b rest t ha hp hh hb he => exact (effect_of_exec he).legal hu hp
  | phase1 ha hp he ht => exact legal_phase1 hu he
  | phase2 => exact legal_phase2 hu
  | request ha he => exact legal_request hu he
  | done => exact legal_done hu
  | reset => exact legal_resetMachine _

/-- Settles O56: each move of an agent keeps each of the nine conditions. -/
theorem stepKeepsStatesLegal : Obligations.StepKeepsStatesLegal := fun _ _ hs h => legal_of_step hs h

/-! ## Which instruction has which effect -/

/-- The state an instruction leaves, by the instruction: unlike `Effect`, it says which instruction writes what. One whose
operands are out of range has no effect (`none`). WR_CMD stands for the command it carries (`commandOf`) and has no shape of its own. -/
inductive EffectOf (s : State) : Instr → State → Prop
  | none (i : Instr) : EffectOf s i s
  | start : EffectOf s .start
      { s with enabled := true, line := 0#10, bufsel := .row 0, vtarget := .vend, tickPending := false }
  | stop : EffectOf s .stop { s with enabled := false, tickPending := false }
  | pause : EffectOf s .pause { s with running := false }
  | resume : EffectOf s .resume { s with running := true }
  | setprop (mask : Byte) (line : BitVec 16) (l : Nat) : EffectOf s (.setprop mask line) (lptWrite l mask s)
  | setprops (mask : Byte) (line : BitVec 16) (lo hi : Nat) :
      EffectOf s (.setprops mask line) (beginHop (.props lo hi mask) s)
  | getprop (line : BitVec 16) (v : Word) : EffectOf s (.getprop line) (setResult v s)
  | putpix (mode : Mode) (v : BitVec 1) (a : Nat) (n : Byte) : EffectOf s (.putpix mode v) (fbWrite a n s)
  | putpix8 (mode : Mode) (d8 : Byte) (a : Nat) (n : Byte) : EffectOf s (.putpix8 mode d8) (fbWrite a n s)
  | putpix32 (mode : Mode) (a : Nat) (bytes : List Byte) :
      EffectOf s (.putpix32 mode) (beginHop (.bytes mode a bytes) s)
  | getpix (v : Word) : EffectOf s .getpix (setResult v s)
  | getpix8 (v : Word) : EffectOf s .getpix8 (setResult v s)
  | getpix32 (v : Word) : EffectOf s .getpix32 (setResult v s)
  | fill (d8 : Byte) : EffectOf s (.fill d8) (beginHop (.fill 0 d8) s)
  | fbWr8 (off : BitVec 15) (d : Byte) : EffectOf s (.fbWr8 off d) (fbWrite off.toNat d s)
  | fbWr32 (off : BitVec 15) (d : Word) (bytes : List Byte) :
      EffectOf s (.fbWr32 off d) (beginHop (.bytes .set off.toNat bytes) s)
  | wrXy (w : Word) : EffectOf s (.wrXy w) { s with xy := w }
  | wrData (w : Word) : EffectOf s (.wrData w) { s with data := w }
  | respond (i : Instr) (v : Word) : EffectOf s i (respond v s)

theorem execSetprop_effectOf (mask : Byte) (line : BitVec 16) (s : State) :
    ∃ t, execSetprop mask line s = .next t ∧ EffectOf s (.setprop mask line) t := by
  unfold execSetprop
  split
  · exact ⟨_, rfl, .setprop mask line _⟩
  · exact ⟨_, rfl, .none _⟩

theorem execSetprops_effectOf (mask : Byte) (line : BitVec 16) (s : State) :
    ∃ t, execSetprops mask line s = .next t ∧ EffectOf s (.setprops mask line) t := by
  unfold execSetprops
  dsimp only
  split_ifs
  · exact ⟨_, rfl, .setprops mask line _ _⟩
  · exact ⟨_, rfl, .none _⟩

theorem execPutpix_effectOf (mode : Mode) (v : BitVec 1) (s : State) :
    ∃ t, execPutpix mode v s = .next t ∧ EffectOf s (.putpix mode v) t := by
  unfold execPutpix
  split_ifs
  · exact ⟨_, rfl, .none _⟩
  · split
    · exact ⟨_, rfl, .putpix mode v _ _⟩
    · exact ⟨_, rfl, .none _⟩

theorem execPutpix8_effectOf (mode : Mode) (d8 : Byte) (s : State) :
    ∃ t, execPutpix8 mode d8 s = .next t ∧ EffectOf s (.putpix8 mode d8) t := by
  unfold execPutpix8
  split_ifs
  · exact ⟨_, rfl, .none _⟩
  · split
    · exact ⟨_, rfl, .putpix8 mode d8 _ _⟩
    · exact ⟨_, rfl, .none _⟩

theorem execPutpix32_effectOf (mode : Mode) (s : State) :
    ∃ t, execPutpix32 mode s = .next t ∧ EffectOf s (.putpix32 mode) t := by
  unfold execPutpix32
  split_ifs
  · exact ⟨_, rfl, .none _⟩
  · split
    · exact ⟨_, rfl, .putpix32 mode _ _⟩
    · exact ⟨_, rfl, .none _⟩

theorem execFbWr8_effectOf (off : BitVec 15) (d : Byte) (s : State) :
    ∃ t, execFbWr8 off d s = .next t ∧ EffectOf s (.fbWr8 off d) t := by
  unfold execFbWr8
  split_ifs
  · exact ⟨_, rfl, .fbWr8 off d⟩
  · exact ⟨_, rfl, .none _⟩

theorem execFbWr32_effectOf (off : BitVec 15) (d : Word) (s : State) :
    ∃ t, execFbWr32 off d s = .next t ∧ EffectOf s (.fbWr32 off d) t := by
  unfold execFbWr32
  split_ifs
  · exact ⟨_, rfl, .fbWr32 off d _⟩
  · exact ⟨_, rfl, .none _⟩

/-- R132, R133: an access that no register answers writes nothing but RDATA. -/
theorem noRegister_effectOf (i : Instr) (we : Bool) (s : State) : EffectOf s i (noRegister we s) := by
  cases we
  · exact .respond i _
  · exact .none i

/-- R100, R128: WR_CMD is the command it carries. -/
theorem exec_wrCmd (w : Word) (s : State) : exec (.wrCmd w) s = exec (decodeCommand w) s := by
  show execWrCmd w s = exec (decodeCommand w) s
  unfold execWrCmd decodeCommand
  cases opcodeOf (cmdOpc w) with
  | none => rfl
  | some o => cases o <;> rfl

/-- R73, R74: no command word decodes to a bus transaction. -/
theorem decodeCommand_ne_wrCmd (w v : Word) : decodeCommand w ≠ .wrCmd v := by
  unfold decodeCommand
  split <;> exact Instr.noConfusion

/-- R100, R128: an instruction and the command it stands for have one meaning. -/
theorem exec_commandOf (i : Instr) (s : State) : exec (commandOf i) s = exec i s := by
  cases i with
  | wrCmd w => exact (exec_wrCmd w s).symm
  | _ => rfl

/-- R100: no command carries another. -/
theorem commandOf_ne_wrCmd (i : Instr) (v : Word) : commandOf i ≠ .wrCmd v := by
  cases i with
  | wrCmd w => exact decodeCommand_ne_wrCmd w v
  | _ => exact Instr.noConfusion

/-- Everything an instruction other than WR_CMD can do, said of that instruction. -/
theorem exec_effectOf (i : Instr) (s : State) (hi : ∀ w, i ≠ .wrCmd w) :
    ∃ t, exec i s = .next t ∧ EffectOf s i t := by
  cases i with
  | nop => exact ⟨_, rfl, .none _⟩
  | start => exact ⟨_, rfl, .start⟩
  | stop => exact ⟨_, rfl, .stop⟩
  | pause => exact ⟨_, rfl, .pause⟩
  | resume => exact ⟨_, rfl, .resume⟩
  | setprop mask line => exact execSetprop_effectOf mask line s
  | setprops mask line => exact execSetprops_effectOf mask line s
  | getprop line =>
    obtain ⟨v, h⟩ := execGetprop_effect line s
    exact ⟨_, h, .getprop line v⟩
  | putpix mode v => exact execPutpix_effectOf mode v s
  | putpix8 mode d8 => exact execPutpix8_effectOf mode d8 s
  | putpix32 mode => exact execPutpix32_effectOf mode s
  | getpix =>
    obtain ⟨v, h⟩ := execGetpix_effect s
    exact ⟨_, h, .getpix v⟩
  | getpix8 =>
    obtain ⟨v, h⟩ := execGetpix8_effect s
    exact ⟨_, h, .getpix8 v⟩
  | getpix32 =>
    obtain ⟨v, h⟩ := execGetpix32_effect s
    exact ⟨_, h, .getpix32 v⟩
  | fill d8 => exact ⟨_, rfl, .fill d8⟩
  | reservedOpc opc => exact ⟨_, rfl, .none _⟩
  | fbWr8 off d => exact execFbWr8_effectOf off d s
  | fbWr32 off d => exact execFbWr32_effectOf off d s
  | wrCmd w => exact absurd rfl (hi w)
  | wrXy w => exact ⟨_, rfl, .wrXy w⟩
  | wrData w => exact ⟨_, rfl, .wrData w⟩
  | fbRd8 | fbRd32 | rdCmd | rdXy | rdData | rdResult | rdStatus => exact ⟨_, rfl, .respond _ _⟩
  | regByte we off => exact ⟨_, rfl, noRegister_effectOf _ we s⟩
  | regOther32 we off => exact ⟨_, rfl, noRegister_effectOf _ we s⟩

/-- Whatever an instruction answers, its command had the effect. -/
theorem effectOf_of_exec {i : Instr} {s t : State} (h : exec i s = .next t) : EffectOf s (commandOf i) t := by
  obtain ⟨t', h', he⟩ := exec_effectOf (commandOf i) s (commandOf_ne_wrCmd i)
  rw [exec_commandOf, h] at h'
  exact Host.Outcome.next.inj h' ▸ he

/-! ## Who writes what, instruction by instruction -/

/-- HOST's registers and RUNNING, which no step of an operation in flight writes. -/
structure RegistersKept (t s : State) : Prop where
  xy : t.xy = s.xy
  data : t.data = s.data
  result : t.result = s.result
  running : t.running = s.running

theorem hopStep_registersKept (s : State) : RegistersKept (hopStep s) s := by
  obtain ⟨hxy, hdata, hresult, hrunning, -⟩ := hopStep_registers s
  exact ⟨hxy, hdata, hresult, hrunning⟩

theorem beginHop_registersKept (h : Hop) (s : State) : RegistersKept (beginHop h s) s :=
  let k := hopStep_registersKept (setHop h s)
  ⟨k.xy, k.data, k.result, k.running⟩

theorem beginHop_bytes_lpt (mode : Mode) (a : Nat) (bytes : List Byte) (s : State) :
    (beginHop (.bytes mode a bytes) s).lpt = s.lpt := by
  cases bytes <;> rfl

theorem beginHop_fill_lpt (a : Nat) (d8 : Byte) (s : State) : (beginHop (.fill a d8) s).lpt = s.lpt := rfl

theorem beginHop_props_fb (l stop : Nat) (mask : Byte) (s : State) : (beginHop (.props l stop mask) s).fb = s.fb := rfl

section
variable {s t : State} {i : Instr}

/-- R21, R129: WR_XY alone writes XY, with its operand. -/
theorem EffectOf.xy_writer (h : EffectOf s i t) (hne : t.xy ≠ s.xy) : i = .wrXy t.xy := by
  cases h with
  | wrXy w => rfl
  | putpix32 | fbWr32 | fill | setprops => exact absurd (beginHop_registersKept _ s).xy hne
  | _ => exact absurd rfl hne

/-- R22, R130: WR_DATA alone writes DATA, with its operand. -/
theorem EffectOf.data_writer (h : EffectOf s i t) (hne : t.data ≠ s.data) : i = .wrData t.data := by
  cases h with
  | wrData w => rfl
  | putpix32 | fbWr32 | fill | setprops => exact absurd (beginHop_registersKept _ s).data hne
  | _ => exact absurd rfl hne

/-- R23: the GET commands alone write RESULT. -/
theorem EffectOf.result_writer (h : EffectOf s i t) (hne : t.result ≠ s.result) :
    (∃ l, i = .getprop l) ∨ i = .getpix ∨ i = .getpix8 ∨ i = .getpix32 := by
  cases h with
  | getprop line v => exact .inl ⟨line, rfl⟩
  | getpix v => exact .inr (.inl rfl)
  | getpix8 v => exact .inr (.inr (.inl rfl))
  | getpix32 v => exact .inr (.inr (.inr rfl))
  | putpix32 | fbWr32 | fill | setprops => exact absurd (beginHop_registersKept _ s).result hne
  | _ => exact absurd rfl hne

/-- R25: START and STOP alone write ENABLED. -/
theorem EffectOf.enabled_writer (h : EffectOf s i t) (hne : t.enabled ≠ s.enabled) : i = .start ∨ i = .stop := by
  cases h with
  | start => exact .inl rfl
  | stop => exact .inr rfl
  | putpix32 | fbWr32 | fill | setprops => exact absurd (beginHop_control _ s).enabled hne
  | _ => exact absurd rfl hne

/-- R26: PAUSE and RESUME alone write RUNNING. -/
theorem EffectOf.running_writer (h : EffectOf s i t) (hne : t.running ≠ s.running) : i = .pause ∨ i = .resume := by
  cases h with
  | pause => exact .inl rfl
  | resume => exact .inr rfl
  | putpix32 | fbWr32 | fill | setprops => exact absurd (beginHop_registersKept _ s).running hne
  | _ => exact absurd rfl hne

/-- R32: START alone writes the cursor, with line 0's. -/
theorem EffectOf.cursor_kept_or_start (h : EffectOf s i t) :
    (t.line = s.line ∧ t.bufsel = s.bufsel ∧ t.vtarget = s.vtarget) ∨
      (i = .start ∧ t.line = 0 ∧ t.bufsel = .row 0 ∧ t.vtarget = .vend) := by
  cases h with
  | start => exact .inr ⟨rfl, rfl, rfl, rfl⟩
  | putpix32 | fbWr32 | fill | setprops =>
    exact .inl ⟨(beginHop_control _ s).line, (beginHop_control _ s).bufsel, (beginHop_control _ s).vtarget⟩
  | _ => exact .inl ⟨rfl, rfl, rfl⟩

/-- R37: the instructions that write the framebuffer. -/
theorem EffectOf.fb_writer (h : EffectOf s i t) (hne : t.fb ≠ s.fb) :
    (∃ m v, i = .putpix m v) ∨ (∃ m d, i = .putpix8 m d) ∨ (∃ m, i = .putpix32 m) ∨ (∃ d, i = .fill d) ∨
      (∃ o d, i = .fbWr8 o d) ∨ (∃ o d, i = .fbWr32 o d) := by
  cases h with
  | putpix m v => exact .inl ⟨m, v, rfl⟩
  | putpix8 m d => exact .inr (.inl ⟨m, d, rfl⟩)
  | putpix32 m => exact .inr (.inr (.inl ⟨m, rfl⟩))
  | fill d => exact .inr (.inr (.inr (.inl ⟨d, rfl⟩)))
  | fbWr8 o d => exact .inr (.inr (.inr (.inr (.inl ⟨o, d, rfl⟩))))
  | fbWr32 o d => exact .inr (.inr (.inr (.inr (.inr ⟨o, d, rfl⟩))))
  | setprops => exact absurd (beginHop_props_fb _ _ _ s) hne
  | _ => exact absurd rfl hne

/-- R38: the instructions that write the line-properties table. -/
theorem EffectOf.lpt_writer (h : EffectOf s i t) (hne : t.lpt ≠ s.lpt) :
    (∃ m l, i = .setprop m l) ∨ (∃ m l, i = .setprops m l) := by
  cases h with
  | setprop m l => exact .inl ⟨m, l, rfl⟩
  | setprops m l => exact .inr ⟨m, l, rfl⟩
  | putpix32 | fbWr32 => exact absurd (beginHop_bytes_lpt _ _ _ s) hne
  | fill => exact absurd (beginHop_fill_lpt _ _ s) hne
  | _ => exact absurd rfl hne

end

/-! ## Who writes what, step by step -/

/-- What HOST alone writes, a reset apart: its registers, the control bits of STATUS and the two tables. -/
structure HostKept (t s : State) : Prop where
  xy : t.xy = s.xy
  data : t.data = s.data
  result : t.result = s.result
  enabled : t.enabled = s.enabled
  running : t.running = s.running
  fb : t.fb = s.fb
  lpt : t.lpt = s.lpt

/-- A step that is no reset, as the state that HOST and the cursor see: it leaves HOST's state alone, or is a step of the
operation in flight, or is the effect of what HOST issues, from `s` but for its inputs. -/
inductive HostView (s t : State) : Prop
  | kept (hk : HostKept t s) (hc : (t.line = s.line ∧ t.bufsel = s.bufsel ∧ t.vtarget = s.vtarget) ∨
      (nextAgent s = .seq ∧ s.phase = .waitSer))
  | hop (ha : nextAgent s = .host) (hp : s.phase = .idle) (hh : s.hop ≠ .none)
      (hx : RegistersKept t s) (hc : ControlKept t s)
  | issue (sched : List Agent) (turn : Nat) (bus : List Transaction) (i : Instr) (ha : nextAgent s = .host)
      (hp : s.phase = .idle) (hi : issued s = some i)
      (he : EffectOf { s with sched := sched, turn := turn, bus := bus } i t)

/-- R12: every step that is no reset has its view. -/
theorem hostView_of_step {s t : State} (h : step s = .next t) (hr : nextAgent s ≠ .rst) : HostView s t := by
  obtain ⟨sched, turn, hm⟩ := step_cases h
  cases hm with
  | hold | request | done => exact .kept ⟨rfl, rfl, rfl, rfl, rfl, rfl, rfl⟩ (.inl ⟨rfl, rfl, rfl⟩)
  | hop ha hp hh =>
    have hx := hopStep_registersKept { s with sched := sched, turn := turn }
    have hc := hopStep_control { s with sched := sched, turn := turn }
    exact .hop ha hp hh ⟨hx.xy, hx.data, hx.result, hx.running⟩
      ⟨hc.enabled, hc.tickPending, hc.line, hc.bufsel, hc.vtarget⟩
  | issue b rest t ha hp hh hb he =>
    exact .issue sched turn rest _ ha hp (issued_eq ha hp hh hb) (effectOf_of_exec he)
  | phase1 =>
    rw [phase1_eq]
    exact .kept ⟨rfl, rfl, rfl, rfl, rfl, rfl, rfl⟩ (.inl ⟨rfl, rfl, rfl⟩)
  | phase2 ha hp =>
    rw [phase2_eq]
    exact .kept ⟨rfl, rfl, rfl, rfl, rfl, rfl, rfl⟩ (.inr ⟨ha, hp⟩)
  | reset ha => exact absurd ha hr

/-- Settles O48: only the effect of an issued instruction can change HOST's registers. -/
theorem onlyTheirWritersChangeHostRegisters : Obligations.OnlyTheirWritersChangeHostRegisters := by
  intro s t h hr
  cases hostView_of_step h hr with
  | kept hk => exact ⟨absurd hk.xy, absurd hk.data, absurd hk.result⟩
  | hop ha hp hh hx hc => exact ⟨absurd hx.xy, absurd hx.data, absurd hx.result⟩
  | issue sched turn bus i ha hp hi he =>
    simp only [hi, Option.some.injEq]
    exact ⟨he.xy_writer, he.data_writer, he.result_writer⟩

/-- Settles O49: ENABLED and RUNNING follow the issued command; the cursor follows START or phase 2. -/
theorem onlyTheirWritersChangeControlAndCursor : Obligations.OnlyTheirWritersChangeControlAndCursor := by
  intro s t h hr
  cases hostView_of_step h hr with
  | kept hk hc =>
    refine ⟨absurd hk.enabled, absurd hk.running, fun hne => ?_⟩
    rcases hc with ⟨hline, hbufsel, hvtarget⟩ | hseq
    · simp [hline, hbufsel, hvtarget] at hne
    · exact .inr hseq
  | hop ha hp hh hx hc =>
    refine ⟨absurd hc.enabled, absurd hx.running, fun hne => ?_⟩
    simp [hc.line, hc.bufsel, hc.vtarget] at hne
  | issue sched turn bus i ha hp hi he =>
    simp only [hi, Option.some.injEq]
    refine ⟨he.enabled_writer, he.running_writer, fun hne => ?_⟩
    rcases he.cursor_kept_or_start with ⟨hline, hbufsel, hvtarget⟩ | hstart
    · simp [hline, hbufsel, hvtarget] at hne
    · exact .inl hstart

/-- Settles O50: of all the effects of a transaction, only START's touches the cursor. -/
theorem noTransactionWritesTheCursorButStart : Obligations.NoTransactionWritesTheCursorButStart :=
  fun _ _ _ h => (effectOf_of_exec h).cursor_kept_or_start

/-- Settles O51: the tables change in a step of the operation in flight or by the effect of an issued instruction. -/
theorem onlyHostWritesFramebufferAndTable : Obligations.OnlyHostWritesFramebufferAndTable := by
  intro s t h hr
  cases hostView_of_step h hr with
  | kept hk => exact ⟨absurd hk.fb, absurd hk.lpt⟩
  | hop ha hp hh => exact ⟨fun _ => ⟨ha, hp, .inl hh⟩, fun _ => ⟨ha, hp, .inl hh⟩⟩
  | issue sched turn bus i ha hp hi he =>
    simp only [hi, Option.some.injEq]
    exact ⟨fun hne => ⟨ha, hp, .inr (he.fb_writer hne)⟩, fun hne => ⟨ha, hp, .inr (he.lpt_writer hne)⟩⟩

/-! ## The outputs -/

/-- R40, R83: a step leaves the outputs, or is a reset or phase 1. -/
theorem outputs_of_step {s t : State} (h : step s = .next t) :
    (t.hsyncN = s.hsyncN ∧ t.vsyncN = s.vsyncN ∧ t.color = s.color) ∨ nextAgent s = .rst ∨
    (nextAgent s = .seq ∧ s.phase = .idle ∧ s.enabled = true ∧ s.tickPending = true ∧ t.phase = .waitSer) := by
  obtain ⟨sched, turn, hm⟩ := step_cases h
  cases hm with
  | hold | request | done => exact .inl ⟨rfl, rfl, rfl⟩
  | hop =>
    have k := hopStep_outside { s with sched := sched, turn := turn }
    exact .inl ⟨k.hsyncN, k.vsyncN, k.color⟩
  | issue b rest t ha hp hh hb he =>
    have k := (effect_of_exec he).outside
    exact .inl ⟨k.hsyncN, k.vsyncN, k.color⟩
  | phase1 ha hp he ht => exact .inr (.inr ⟨ha, hp, he, ht, by rw [phase1_eq]⟩)
  | phase2 =>
    rw [phase2_eq]
    exact .inl ⟨rfl, rfl, rfl⟩
  | reset ha => exact .inr (.inl ha)

/-- Settles O52: every move but phase 1 and reset leaves the three outputs. -/
theorem outputsChangeOnlyInPhaseOne : Obligations.OutputsChangeOnlyInPhaseOne := by
  intro s t h hne
  rcases outputs_of_step h with ⟨hhsync, hvsync, hcolor⟩ | hother
  · simp [hhsync, hvsync, hcolor] at hne
  · exact hother

/-! ## HOST's turn with an operation in flight -/

/-- Settles O11: HOST's move with HOP set is `hopStep`, which leaves HOST's program. -/
theorem hostTurnContinuesTheOperationInFlight : Obligations.HostTurnContinuesTheOperationInFlight := by
  intro s agents hsched hphase hhop
  refine ⟨hopStep { s with sched := agents }, ?_, rfl, (hopStep_outside { s with sched := agents }).bus⟩
  rw [step_of_sched hsched]
  simp [agentMove, hostMove, hphase, (hop_pending_iff s.hop).2 hhop]

/-! ## STATUS -/

theorem vtarget_bit_eq (v : VTarget) : v.bit = decide (v = .vbegin) := by cases v <;> rfl

/-- R42: STATUS[7:0], the one-bit fields from bit 7 down to bit 0. -/
def statusBits (s : State) : BitVec 8 :=
  0#1 ++ BitVec.ofBool s.vsyncN ++ BitVec.ofBool s.hsyncN ++ BitVec.ofBool s.lpe ++ BitVec.ofBool s.serBusy ++
    BitVec.ofBool s.vtarget.bit ++ BitVec.ofBool s.running ++ BitVec.ofBool s.enabled

/-- R42: STATUS[31:8], LINE and COLOR between reserved bits. -/
def statusFields (s : State) : BitVec 24 := 0#6 ++ s.line ++ 0#6 ++ s.color

theorem status_eq_append (s : State) : status s = statusFields s ++ statusBits s := by
  apply BitVec.eq_of_toNat_eq
  simp only [status, statusFields, statusBits, BitVec.toNat_append, Nat.shiftLeft_or_distrib, ← Nat.shiftLeft_add,
    Nat.or_assoc]

/-- R42: STATUS[7:0] lists its fields from bit 0 up. -/
theorem getLsbD_statusBits (s : State) (i : Fin 8) : (statusBits s).getLsbD i =
    [s.enabled, s.running, s.vtarget.bit, s.serBusy, s.lpe, s.hsyncN, s.vsyncN, false][i] := by
  unfold statusBits
  generalize s.enabled = b0, s.running = b1, s.vtarget.bit = b2, s.serBusy = b3, s.lpe = b4, s.hsyncN = b5,
    s.vsyncN = b6
  revert b0 b1 b2 b3 b4 b5 b6 i
  decide

/-- A one-bit field of STATUS. -/
theorem getLsbD_status (s : State) (i : Fin 8) : (status s).getLsbD i =
    [s.enabled, s.running, s.vtarget.bit, s.serBusy, s.lpe, s.hsyncN, s.vsyncN, false][i] := by
  rw [status_eq_append, ← getLsbD_statusBits]
  exact BitVec.getLsbD_append.trans (if_pos i.isLt)

/-- A field of STATUS[31:8]. -/
theorem extractLsb'_status (s : State) (k j : Nat) (h : 8 ≤ k) :
    (status s).extractLsb' k j = (statusFields s).extractLsb' (k - 8) j := by
  rw [status_eq_append]
  exact extract_append_skip _ _ h

/-- Settles O32: the one-bit fields lie in STATUS[7:0], LINE, COLOR and the reserved bits around them in STATUS[31:8]. -/
theorem statusShowsItsFields : Obligations.StatusShowsItsFields := by
  intro s
  refine ⟨getLsbD_status s 0, getLsbD_status s 1, (getLsbD_status s 2).trans (vtarget_bit_eq _), getLsbD_status s 3,
    getLsbD_status s 4, getLsbD_status s 5, getLsbD_status s 6, getLsbD_status s 7, ?_, ?_, ?_, ?_⟩ <;>
    rw [extractLsb'_status s _ _ (by omega)] <;> unfold statusFields
  · exact (extract_append_low (0#6 ++ s.line ++ 0#6) s.color (by omega)).trans (extract_all _)
  · exact (extract_append_skip (0#6 ++ s.line ++ 0#6) s.color (by omega)).trans
      ((extract_append_low (0#6 ++ s.line) 0#6 (by omega)).trans (extract_all _))
  · exact (extract_append_skip (0#6 ++ s.line ++ 0#6) s.color (by omega)).trans
      ((extract_append_skip (0#6 ++ s.line) 0#6 (by omega)).trans
        ((extract_append_low 0#6 s.line (by omega)).trans (extract_all _)))
  · exact (extract_append_skip (0#6 ++ s.line ++ 0#6) s.color (by omega)).trans
      ((extract_append_skip (0#6 ++ s.line) 0#6 (by omega)).trans (extract_append_high 0#6 s.line))

end Sys2Proof.Machine

/-! PROOFS. The statements of 20_memory.md: what HOST's turn runs, and the framebuffer as its two word writes leave it. -/

namespace Sys2Proof.Machine

/-! ## HOST's move -/

/-- R50, R123: between ticks and with no operation in flight HOST issues its next transaction. -/
theorem hostMove_issue {s : State} {t : Transaction} {rest : List Transaction} (hphase : s.phase = .idle)
    (hhop : s.hop = .none) (hbus : s.bus = t :: rest) : hostMove s = exec (decodeBus t) { s with bus := rest } := by
  simp [hostMove, hphase, hhop, Hop.pending, hbus]

/-- R51 item 1: while a tick is in progress HOST holds. -/
theorem hostMove_waitSer {s : State} (hphase : s.phase = .waitSer) : hostMove s = .next s := by
  simp [hostMove, hphase]

/-- Settles O8: a scheduled turn is the agent's move, and HOST's move issues. -/
theorem hostTurnRunsTheDecodedTransaction : Obligations.HostTurnRunsTheDecodedTransaction := by
  intro s agents t rest hsched hbus hphase hhop
  exact (step_of_sched hsched).trans (hostMove_issue (s := { s with sched := agents }) hphase hhop hbus)

/-- Settles O12: a scheduled turn is the agent's move, and HOST holds. -/
theorem hostHoldsWhileATickIsInProgress : Obligations.HostHoldsWhileATickIsInProgress := by
  intro s agents hsched hphase
  exact (step_of_sched hsched).trans (hostMove_waitSer (s := { s with sched := agents }) hphase)

/-! ## A word of the opcode table given to HOST -/

/-- The next step runs what `issueNext` gives HOST. -/
theorem step_issueNext (t : Transaction) (s : State) :
    step (issueNext t s) = exec (decodeBus t) { s with phase := .idle, hop := .none } :=
  hostTurnRunsTheDecodedTransaction (issueNext t s) s.sched t s.bus rfl rfl rfl rfl

/-- Log 14: a command word of the table is carried by a WR_CMD transaction. -/
theorem decodeBus_tableTransaction_command {w : Nat} {t : Transaction} (h : tableTransaction 32 w = some t) :
    decodeBus t = .wrCmd t.wdata := by
  simp only [tableTransaction, Nat.reduceLeDiff, and_false, if_false, if_true, Option.ite_none_right_eq_some,
    Option.some.injEq] at h
  obtain ⟨-, rfl⟩ := h
  exact decodeBus_wrCmd _

/-- Log 14: the transaction that carries a word of the table has the effect of the instruction the word decodes to. -/
theorem exec_tableTransaction {nbits w : Nat} {t : Transaction} {i : Instr} (ht : tableTransaction nbits w = some t)
    (hi : decodeTableWord nbits w = some i) (s : State) : exec (decodeBus t) s = exec i s := by
  simp only [decodeTableWord, ht, Option.some.injEq] at hi
  subst hi
  split_ifs with hn
  · subst hn
    rw [decodeBus_tableTransaction_command ht, exec_wrCmd]
    rfl
  · rfl

/-- Settles O10: a word that decodes has a transaction, which the next step issues. -/
theorem placedTableWordRunsNext : Obligations.PlacedTableWordRunsNext := by
  intro s nbits w i hi
  cases ht : tableTransaction nbits w with
  | none => simp [decodeTableWord, ht] at hi
  | some t =>
    have hfetch : s.withFetchWord nbits w = issueNext t s := by simp [State.withFetchWord, ht]
    rw [hfetch, step_issueNext, exec_tableTransaction ht hi]

/-! ## The operands of a word write -/

/-- R9: a value below 2^15 is its own signed reading. -/
theorem s16_ofNat {n : Nat} (h : n < 2 ^ 15) : s16 (BitVec.ofNat 16 n) = n := by
  rw [s16, BitVec.toInt_ofNat']
  exact Int.bmod_eq_of_le (by omega) (by omega)

/-- R71: X of an XY register built from small coordinates. -/
theorem opX_of_xy {s : State} {x y : Nat} (h : s.xy = BitVec.ofNat 16 y ++ BitVec.ofNat 16 x) (hx : x < 2 ^ 15) :
    opX s = x := by
  rw [opX, h, extract_append_low _ _ (by omega), extract_all, s16_ofNat hx]

/-- R71: Y of an XY register built from small coordinates. -/
theorem opY_of_xy {s : State} {x y : Nat} (h : s.xy = BitVec.ofNat 16 y ++ BitVec.ofNat 16 x) (hy : y < 2 ^ 15) :
    opY s = y := by
  rw [opY, h, extract_append_high, s16_ofNat hy]

/-- R111: the first byte of an in-range word column. -/
theorem wordIndex_ofNat {x y : Nat} (hx : x < 16) (hy : y < 480) : wordIndex x y = some (64 * y + 4 * x) := by
  rw [wordIndex_eq, if_pos (by omega), Int.toNat_natCast, Int.toNat_natCast]

/-- R47: the lanes of a raw word, least significant first. -/
theorem bytesLE_append (b0 b1 b2 b3 : Byte) : bytesLE (b3 ++ b2 ++ b1 ++ b0) = [b0, b1, b2, b3] := by
  have h0 : (b3 ++ b2 ++ b1 ++ b0).extractLsb' 0 8 = b0 :=
    (extract_append_low (b3 ++ b2 ++ b1) b0 (by omega)).trans (extract_all _)
  have h1 : (b3 ++ b2 ++ b1 ++ b0).extractLsb' 8 8 = b1 :=
    (extract_append_skip (b3 ++ b2 ++ b1) b0 (by omega)).trans
      ((extract_append_low (b3 ++ b2) b1 (by omega)).trans (extract_all _))
  have h2 : (b3 ++ b2 ++ b1 ++ b0).extractLsb' 16 8 = b2 :=
    (extract_append_skip (b3 ++ b2 ++ b1) b0 (by omega)).trans
      ((extract_append_skip (b3 ++ b2) b1 (by omega)).trans
        ((extract_append_low b3 b2 (by omega)).trans (extract_all _)))
  have h3 : (b3 ++ b2 ++ b1 ++ b0).extractLsb' 24 8 = b3 :=
    (extract_append_skip (b3 ++ b2 ++ b1) b0 (by omega)).trans
      ((extract_append_skip (b3 ++ b2) b1 (by omega)).trans (extract_append_high b3 b2))
  rw [bytesLE, h0, h1, h2, h3]

/-- R46, R115: the bytes of a pixel word, most significant first. -/
theorem bytesBE_append (b0 b1 b2 b3 : Byte) : bytesBE (b0 ++ b1 ++ b2 ++ b3) = [b0, b1, b2, b3] :=
  congrArg List.reverse (bytesLE_append b3 b2 b1 b0)

/-! ## A word write run to its completion -/

/-- R115: PUTPIX32 SET of an in-range word starts a write of its four bytes. -/
theorem execPutpix32_set {s : State} {x y : Nat} {b0 b1 b2 b3 : Byte} (hx : x < 16) (hy : y < 480)
    (hxy : s.xy = BitVec.ofNat 16 y ++ BitVec.ofNat 16 x) (hdata : s.data = b0 ++ b1 ++ b2 ++ b3) :
    exec (.putpix32 .set) s = .next (beginHop (.bytes .set (64 * y + 4 * x) [b0, b1, b2, b3]) s) := by
  have ha : wordIndex (opX s) (opY s) = some (64 * y + 4 * x) := by
    rw [opX_of_xy hxy (by omega), opY_of_xy hxy (by omega), wordIndex_ofNat hx hy]
  simp only [exec, execPutpix32, ha, hdata, bytesBE_append, reduceCtorEq, if_false]

/-- R127: FB_WR32 at an aligned, backed offset starts a write of its four bytes. -/
theorem execFbWr32_aligned {a : Nat} {b0 b1 b2 b3 : Byte} (s : State) (hmod : a % 4 = 0) (ha : a + 3 < 30720) :
    exec (.fbWr32 (BitVec.ofNat 15 a) (b3 ++ b2 ++ b1 ++ b0)) s =
      .next (beginHop (.bytes .set a [b0, b1, b2, b3]) s) := by
  have hoff : (BitVec.ofNat 15 a).toNat = a := by rw [BitVec.toNat_ofNat, Nat.mod_eq_of_lt (by omega)]
  have hok : rawWordOk (BitVec.ofNat 15 a) = true := by simp [rawWordOk, hoff, hmod, ha]
  simp only [exec, execFbWr32, hok, hoff, bytesLE_append, if_true]

/-- R50: a write that has taken its first step and is then completed has taken a step for each of its bytes. -/
theorem finishHop_beginHop_bytes (mode : Mode) (a : Nat) (b : Byte) (rest : List Byte) (s : State) :
    finishHop (beginHop (.bytes mode a (b :: rest)) s) =
      hopRun (b :: rest).length (setHop (.bytes mode a (b :: rest)) s) := by
  have hleft : (beginHop (.bytes mode a (b :: rest)) s).hop.remaining = rest.length := by cases rest <;> rfl
  rw [finishHop, hleft, beginHop_run, List.length_cons]

/-- R112, R115, R127: a completed write in mode SET has stored its bytes from index `a` on and no other
byte. -/
theorem finishHop_set (a : Nat) (b : Byte) (rest : List Byte) (s : State) :
    (finishHop (beginHop (.bytes .set a (b :: rest)) s)).hop = .none ∧
      ∀ c, fbRead (finishHop (beginHop (.bytes .set a (b :: rest)) s)) c =
        if a ≤ c ∧ c < a + (b :: rest).length then (b :: rest).getD (c - a) 0 else fbRead s c := by
  rw [finishHop_beginHop_bytes]
  obtain ⟨hhop, -, hread⟩ := hopRun_bytes .set (b :: rest).length a (b :: rest) s le_rfl (by simp)
  exact ⟨hhop.trans (if_pos rfl), fun c => by rw [hread, comb_set_all]⟩

/-- Settles O30: both writes store the same four bytes at the same index, over the same framebuffer. -/
theorem byteSwappedRawWriteEqualsPutpix32 : Obligations.ByteSwappedRawWriteEqualsPutpix32 := by
  intro b0 b1 b2 b3 wx y s hx hy _
  refine ⟨_, _, execPutpix32_set hx hy rfl rfl, execFbWr32_aligned s (by omega) (by omega),
    (finishHop_set ..).1, (finishHop_set ..).1, fun c => ?_⟩
  rw [(finishHop_set ..).2, (finishHop_set ..).2]
  rfl

end Sys2Proof.Machine

/-! PROOFS. The statements of 30_encoding.md: the rows of the two decoding tables, the encoder's words in them, and the
assembly line GETPIX8 as HOST runs it. -/

namespace Sys2Proof

/-! ## The transaction table -/

/-- R65: the rows of the transaction table, made disjoint: a transaction and the instruction its row gives. -/
inductive BusRow : Transaction → Instr → Prop
  | fbRd8 (off : BitVec 15) (d : Word) : BusRow ⟨mkBt false false false off, d⟩ (.fbRd8 off)
  | fbWr8 (off : BitVec 15) (d : Word) : BusRow ⟨mkBt true false false off, d⟩ (.fbWr8 off (d.extractLsb' 0 8))
  | fbRd32 (off : BitVec 15) (d : Word) : BusRow ⟨mkBt false true false off, d⟩ (.fbRd32 off)
  | fbWr32 (off : BitVec 15) (d : Word) : BusRow ⟨mkBt true true false off, d⟩ (.fbWr32 off d)
  | wrCmd (d : Word) : BusRow ⟨mkBt true true true 0x0000, d⟩ (.wrCmd d)
  | wrXy (d : Word) : BusRow ⟨mkBt true true true 0x0004, d⟩ (.wrXy d)
  | wrData (d : Word) : BusRow ⟨mkBt true true true 0x0008, d⟩ (.wrData d)
  | rdCmd (d : Word) : BusRow ⟨mkBt false true true 0x0000, d⟩ .rdCmd
  | rdXy (d : Word) : BusRow ⟨mkBt false true true 0x0004, d⟩ .rdXy
  | rdData (d : Word) : BusRow ⟨mkBt false true true 0x0008, d⟩ .rdData
  | rdResult (d : Word) : BusRow ⟨mkBt false true true 0x000C, d⟩ .rdResult
  | rdStatus (d : Word) : BusRow ⟨mkBt false true true 0x0010, d⟩ .rdStatus
  | regByte (we : Bool) (off : BitVec 15) (d : Word) : BusRow ⟨mkBt we false true off, d⟩ (.regByte we off)
  | regOther32 (we : Bool) (off : BitVec 15) (d : Word) (h : namedRegister we off = false) :
      BusRow ⟨mkBt we true true off, d⟩ (.regOther32 we off)

/-- The decoder answers what the transaction's row gives. -/
theorem BusRow.decodeBus_eq {t : Transaction} {i : Instr} (h : BusRow t i) : decodeBus t = i := by
  cases h with
  | regByte we off d => cases we <;> simp [decodeBus]
  | regOther32 we off d h => cases we <;> simp_all [decodeBus, namedRegister]
  | _ => simp [decodeBus]

/-- A 32-bit access to a named register has a row of its own. -/
theorem exists_busRow_of_namedRegister {we : Bool} {off : BitVec 15} (d : Word) (h : namedRegister we off = true) :
    ∃ i, BusRow ⟨mkBt we true true off, d⟩ i := by
  cases we with
  | true =>
    have hoff : off = 0x0000#15 ∨ off = 0x0004#15 ∨ off = 0x0008#15 := by simpa [namedRegister] using h
    rcases hoff with rfl | rfl | rfl
    · exact ⟨_, .wrCmd d⟩
    · exact ⟨_, .wrXy d⟩
    · exact ⟨_, .wrData d⟩
  | false =>
    have hoff : off = 0x0000#15 ∨ off = 0x0004#15 ∨ off = 0x0008#15 ∨ off = 0x000C#15 ∨ off = 0x0010#15 := by
      simpa [namedRegister] using h
    rcases hoff with rfl | rfl | rfl | rfl | rfl
    · exact ⟨_, .rdCmd d⟩
    · exact ⟨_, .rdXy d⟩
    · exact ⟨_, .rdData d⟩
    · exact ⟨_, .rdResult d⟩
    · exact ⟨_, .rdStatus d⟩

/-- Every transaction has a row. -/
theorem exists_busRow (t : Transaction) : ∃ i, BusRow t i := by
  obtain ⟨bt, d⟩ := t
  rw [← mkBt_fields bt]
  generalize btOff bt = off
  match btWe bt, btSz bt, btReg bt with
  | false, false, false => exact ⟨_, .fbRd8 off d⟩
  | true, false, false => exact ⟨_, .fbWr8 off d⟩
  | false, true, false => exact ⟨_, .fbRd32 off d⟩
  | true, true, false => exact ⟨_, .fbWr32 off d⟩
  | we, false, true => exact ⟨_, .regByte we off d⟩
  | we, true, true =>
    cases h : namedRegister we off with
    | false => exact ⟨_, .regOther32 we off d h⟩
    | true => exact exists_busRow_of_namedRegister d h

/-- R65: what a transaction decodes to is given by its row. -/
theorem busRow_decodeBus (t : Transaction) : BusRow t (decodeBus t) := by
  obtain ⟨i, hi⟩ := exists_busRow t
  exact hi.decodeBus_eq.symm ▸ hi

/-- The instruction of a row is one that some word encodes. -/
theorem BusRow.wellFormed {t : Transaction} {i : Instr} (h : BusRow t i) : WellFormed i = true := by
  cases h with
  | regOther32 we off d h => simp [WellFormed, h]
  | _ => rfl

/-- The instruction of a row is encoded by the row's BT word. -/
theorem BusRow.encode_eq {t : Transaction} {i : Instr} (h : BusRow t i) :
    ∃ d : Word, encode i = .transaction ⟨t.bt, d⟩ := by
  cases h <;> exact ⟨_, rfl⟩

/-! ## The opcode map -/

/-- R73: the instruction of a command word whose opcode is that of `o`. -/
def Opcode.instr (o : Opcode) (w : Word) : Instr :=
  match o with
  | .nop => .nop
  | .start => .start
  | .stop => .stop
  | .pause => .pause
  | .resume => .resume
  | .setprop => .setprop (cmdMask w) (cmdLine w)
  | .setprops => .setprops (cmdMask w) (cmdLine w)
  | .getprop => .getprop (cmdLine w)
  | .putpix => .putpix (cmdMode w) (cmdV w)
  | .putpix8 => .putpix8 (cmdMode w) (cmdD8 w)
  | .putpix32 => .putpix32 (cmdMode w)
  | .getpix => .getpix
  | .getpix8 => .getpix8
  | .getpix32 => .getpix32
  | .fill => .fill (cmdD8 w)

/-- R73: a word with a defined opcode decodes to its command. -/
theorem decodeCommand_of_opcodeOf {w : Word} {o : Opcode} (h : opcodeOf (cmdOpc w) = some o) :
    decodeCommand w = o.instr w := by
  unfold decodeCommand
  rw [h]
  cases o <;> rfl

/-- R74: a word with a reserved opcode decodes to the catch-all row. -/
theorem decodeCommand_of_reserved {w : Word} (h : opcodeOf (cmdOpc w) = none) :
    decodeCommand w = .reservedOpc (cmdOpc w) := by
  simp [decodeCommand, h]

theorem decodeCommand_of_code {w : Word} (o : Opcode) (h : cmdOpc w = o.code) : decodeCommand w = o.instr w :=
  decodeCommand_of_opcodeOf (by rw [h, opcodeOf_code])

/-- R73: no defined opcode gives a catch-all row. -/
theorem Opcode.wellFormed_instr (o : Opcode) (w : Word) : WellFormed (o.instr w) = true := by cases o <;> rfl

/-- Every command word decodes to an instruction that some word encodes. -/
theorem wellFormed_decodeCommand (w : Word) : WellFormed (decodeCommand w) = true := by
  cases h : opcodeOf (cmdOpc w) with
  | some o => rw [decodeCommand_of_opcodeOf h, Opcode.wellFormed_instr]
  | none => simp [decodeCommand_of_reserved h, WellFormed, (opcodeOf_eq_none_iff _).1 h]

/-! ## Command words by their format -/

/-- R67: a word of an opcode, whatever CMD[23:0] holds. -/
theorem decodeCommand_append (o : Opcode) (c : BitVec 24) : decodeCommand (o.code ++ c) = o.instr (o.code ++ c) :=
  decodeCommand_of_code o (cmdOpc_append _ c)

section
variable (k : Byte) (l : BitVec 16)

/-- R68: SETPROP takes MASK and LINE16. -/
theorem decodeCommand_setprop : decodeCommand (Opcode.setprop.code ++ k ++ l) = .setprop k l := by
  obtain ⟨hopc, hmask, hline⟩ := formatL_fields Opcode.setprop.code k l
  rw [decodeCommand_of_code .setprop hopc, Opcode.instr, hmask, hline]

/-- R68: SETPROPS takes MASK and LINE16. -/
theorem decodeCommand_setprops : decodeCommand (Opcode.setprops.code ++ k ++ l) = .setprops k l := by
  obtain ⟨hopc, hmask, hline⟩ := formatL_fields Opcode.setprops.code k l
  rw [decodeCommand_of_code .setprops hopc, Opcode.instr, hmask, hline]

/-- R68, R75: GETPROP takes LINE16; MASK is ignored. -/
theorem decodeCommand_getprop : decodeCommand (Opcode.getprop.code ++ k ++ l) = .getprop l := by
  obtain ⟨hopc, -, hline⟩ := formatL_fields Opcode.getprop.code k l
  rw [decodeCommand_of_code .getprop hopc, Opcode.instr, hline]

end

section
variable (hi : BitVec 6) (m : BitVec 2) (mid d8 : Byte) (v7 : BitVec 7) (v : BitVec 1)

/-- R69, D46: PUTPIX takes MODE and D8[0]. -/
theorem decodeCommand_putpix :
    decodeCommand (Opcode.putpix.code ++ hi ++ m ++ mid ++ v7 ++ v) = .putpix (Mode.ofBits m) v := by
  obtain ⟨hopc, hmode, hv⟩ := formatP_v Opcode.putpix.code hi m mid v7 v
  rw [decodeCommand_of_code .putpix hopc, Opcode.instr, hmode, hv]

/-- R69: PUTPIX8 takes MODE and D8. -/
theorem decodeCommand_putpix8 :
    decodeCommand (Opcode.putpix8.code ++ hi ++ m ++ mid ++ d8) = .putpix8 (Mode.ofBits m) d8 := by
  obtain ⟨hopc, hmode, hd8⟩ := formatP_fields Opcode.putpix8.code hi m mid d8
  rw [decodeCommand_of_code .putpix8 hopc, Opcode.instr, hmode, hd8]

/-- R69, R75: PUTPIX32 takes MODE; D8 is ignored. -/
theorem decodeCommand_putpix32 :
    decodeCommand (Opcode.putpix32.code ++ hi ++ m ++ mid ++ d8) = .putpix32 (Mode.ofBits m) := by
  obtain ⟨hopc, hmode, -⟩ := formatP_fields Opcode.putpix32.code hi m mid d8
  rw [decodeCommand_of_code .putpix32 hopc, Opcode.instr, hmode]

end

/-- R70: FILL takes D8; CMD[23:8] is ignored. -/
theorem decodeCommand_fill (f : BitVec 16) (d8 : Byte) : decodeCommand (Opcode.fill.code ++ f ++ d8) = .fill d8 := by
  obtain ⟨hopc, hd8⟩ := formatF_fields Opcode.fill.code f d8
  rw [decodeCommand_of_code .fill hopc, Opcode.instr, hd8]

/-- R69, D46: the encoder's PUTPIX word, its D8 made of the pixel value alone. -/
theorem decodeCommand_formatP_putpix (mode : Mode) (v : BitVec 1) :
    decodeCommand (formatP .putpix mode (0#7 ++ v)) = .putpix mode v := by
  have hsplit : formatP .putpix mode (0#7 ++ v) = Opcode.putpix.code ++ 0#6 ++ mode.bits ++ 0#8 ++ 0#7 ++ v :=
    BitVec.eq_of_toNat_eq (append_assoc3 (Opcode.putpix.code ++ 0#6 ++ mode.bits ++ 0#8) 0#7 v).symm
  rw [hsplit, decodeCommand_putpix, ofBits_bits]

/-! ## The statements about the decoder -/

/-- Settles O1: a command's word is one of its format; a transaction's word lies in its row of the table. -/
theorem decodeOfEncodeIsTheInstruction : Obligations.DecodeOfEncodeIsTheInstruction := by
  intro i hi
  cases i with
  | nop => exact decodeCommand_append .nop 0
  | start => exact decodeCommand_append .start 0
  | stop => exact decodeCommand_append .stop 0
  | pause => exact decodeCommand_append .pause 0
  | resume => exact decodeCommand_append .resume 0
  | setprop mask line => exact decodeCommand_setprop mask line
  | setprops mask line => exact decodeCommand_setprops mask line
  | getprop line => exact decodeCommand_getprop 0 line
  | putpix mode v => exact decodeCommand_formatP_putpix mode v
  | putpix8 mode d8 => exact (decodeCommand_putpix8 0 mode.bits 0 d8).trans (by rw [ofBits_bits])
  | putpix32 mode => exact (decodeCommand_putpix32 0 mode.bits 0 0).trans (by rw [ofBits_bits])
  | getpix => exact decodeCommand_append .getpix 0
  | getpix8 => exact decodeCommand_append .getpix8 0
  | getpix32 => exact decodeCommand_append .getpix32 0
  | fill d8 => exact decodeCommand_fill 0 d8
  | reservedOpc opc =>
    have hopc : cmdOpc (opc ++ 0#24) = opc := cmdOpc_append opc 0
    have hres : opcodeOf opc = none := (opcodeOf_eq_none_iff opc).2 (by simpa [WellFormed] using hi)
    exact (decodeCommand_of_reserved (hopc.symm ▸ hres)).trans (congrArg Instr.reservedOpc hopc)
  | fbRd8 off => exact (BusRow.fbRd8 off 0).decodeBus_eq
  | fbWr8 off d =>
    have hd : (0#24 ++ d).extractLsb' 0 8 = d := (extract_append_low 0#24 d (by omega)).trans (extract_all d)
    exact (BusRow.fbWr8 off (0#24 ++ d)).decodeBus_eq.trans (congrArg (Instr.fbWr8 off) hd)
  | fbRd32 off => exact (BusRow.fbRd32 off 0).decodeBus_eq
  | fbWr32 off d => exact (BusRow.fbWr32 off d).decodeBus_eq
  | wrCmd w => exact (BusRow.wrCmd w).decodeBus_eq
  | wrXy w => exact (BusRow.wrXy w).decodeBus_eq
  | wrData w => exact (BusRow.wrData w).decodeBus_eq
  | rdCmd => exact (BusRow.rdCmd 0).decodeBus_eq
  | rdXy => exact (BusRow.rdXy 0).decodeBus_eq
  | rdData => exact (BusRow.rdData 0).decodeBus_eq
  | rdResult => exact (BusRow.rdResult 0).decodeBus_eq
  | rdStatus => exact (BusRow.rdStatus 0).decodeBus_eq
  | regByte we off => exact (BusRow.regByte we off 0).decodeBus_eq
  | regOther32 we off => exact (BusRow.regOther32 we off 0 (by simpa [WellFormed] using hi)).decodeBus_eq

/-- Settles O2, level by level. -/
theorem everyWordDecodesToWellFormed : Obligations.EveryWordDecodesToWellFormed := by
  intro e
  cases e with
  | command w => exact wellFormed_decodeCommand w
  | transaction t => exact (busRow_decodeBus t).wellFormed

/-- Settles O3: a transaction is encoded in its own row. -/
theorem transactionWordIsRebuiltFromItsInstruction : Obligations.TransactionWordIsRebuiltFromItsInstruction :=
  fun t => (busRow_decodeBus t).encode_eq

/-- Settles O4: each transaction of the statement lies in its row. -/
theorem transactionTableRowsDecode : Obligations.TransactionTableRowsDecode := by
  intro off d we
  simp only [append_eq_mkBt]
  refine ⟨(BusRow.fbRd8 off d).decodeBus_eq, (BusRow.fbWr8 off d).decodeBus_eq, (BusRow.fbRd32 off d).decodeBus_eq,
    (BusRow.fbWr32 off d).decodeBus_eq, (BusRow.wrCmd d).decodeBus_eq, (BusRow.wrXy d).decodeBus_eq,
    (BusRow.wrData d).decodeBus_eq, (BusRow.rdCmd d).decodeBus_eq, (BusRow.rdXy d).decodeBus_eq,
    (BusRow.rdData d).decodeBus_eq, (BusRow.rdResult d).decodeBus_eq, (BusRow.rdStatus d).decodeBus_eq, ?_, ?_, ?_⟩
  · cases we with
    | true => exact (BusRow.regByte true off d).decodeBus_eq
    | false => exact (BusRow.regByte false off d).decodeBus_eq
  · exact fun h => (BusRow.regOther32 true off d (by simpa [namedRegister] using h)).decodeBus_eq
  · exact fun h => (BusRow.regOther32 false off d (by simpa [namedRegister] using h)).decodeBus_eq

/-- Settles O5: the opcode map row by row. -/
theorem commandWordsDecodeByTheirFormat : Obligations.CommandWordsDecodeByTheirFormat := by
  intro c k l hi m mid d8 v7 v f
  exact ⟨decodeCommand_append .nop c, decodeCommand_append .start c, decodeCommand_append .stop c,
    decodeCommand_append .pause c, decodeCommand_append .resume c, decodeCommand_setprop k l,
    decodeCommand_setprops k l, decodeCommand_getprop k l, decodeCommand_putpix hi m mid v7 v,
    decodeCommand_putpix8 hi m mid d8, decodeCommand_putpix32 hi m mid d8, decodeCommand_append .getpix c,
    decodeCommand_append .getpix8 c, decodeCommand_append .getpix32 c, decodeCommand_fill f d8, rfl, rfl, rfl, rfl⟩

/-- Settles O7: the two decoders evaluated. -/
theorem writtenOutWordsDecode : Obligations.WrittenOutWordsDecode := by
  refine ⟨?_, ?_, ?_, ?_, ?_, ?_⟩ <;> decide

end Sys2Proof

namespace Sys2Proof.Machine

/-! ## Reserved opcodes -/

/-- R74: the reserved opcodes, range by range. -/
theorem opcodeOf_eq_none_iff_ranges : ∀ opc : BitVec 8, opcodeOf opc = none ↔
    (0x05 ≤ opc ∧ opc ≤ 0x0F) ∨ (0x13 ≤ opc ∧ opc ≤ 0x1F) ∨ opc = 0x23 ∨ (0x27 ≤ opc ∧ opc ≤ 0x2F) ∨ 0x31 ≤ opc := by
  decide

/-- R74: the opcodes past FILL's are reserved. -/
theorem opcodeOf_isNone_of_ge {n : Nat} (hlo : 0x31 ≤ n) (hhi : n < 256) :
    (opcodeOf (BitVec.ofNat 8 n)).isNone = true := by
  have hle : 0x31 ≤ BitVec.ofNat 8 n := by
    rw [BitVec.le_def, BitVec.toNat_ofNat, Nat.mod_eq_of_lt hhi]
    exact hlo
  rw [(opcodeOf_eq_none_iff_ranges _).2 (.inr (.inr (.inr (.inr hle)))), Option.isNone_none]

/-- R74: all 207 opcodes from 0x31 on and all of the 49 below but the 15 rows of R73. -/
theorem length_reservedOpcodes :
    ((List.range 256).filter (fun n => (opcodeOf (BitVec.ofNat 8 n)).isNone)).length = 241 := by
  have hlow : ((List.range 49).filter (fun n => (opcodeOf (BitVec.ofNat 8 n)).isNone)).length = 34 := by decide
  rw [show 256 = 49 + 207 from rfl, List.range_add, List.filter_append, List.length_append, hlow,
    List.filter_eq_self.2, List.length_map, List.length_range]
  intro n hn
  obtain ⟨m, hm, rfl⟩ := List.mem_map.1 hn
  have hlt : m < 207 := List.mem_range.1 hm
  exact opcodeOf_isNone_of_ge (by omega) (by omega)

/-- Settles O6: a reserved command word decodes to the catch-all row, which answers the state it is given. -/
theorem reservedOpcodesAreConsumedWithNoEffect : Obligations.ReservedOpcodesAreConsumedWithNoEffect := by
  refine ⟨opcodeOf_eq_none_iff_ranges, length_reservedOpcodes, fun w s h => ?_⟩
  have hdec : decodeCommand w = .reservedOpc (cmdOpc w) := decodeCommand_of_reserved h
  exact ⟨hdec, rfl, by rw [exec_wrCmd, hdec]; rfl⟩

/-! ## The assembly line GETPIX8 -/

/-- R78, R129: SETXY is a WR_XY of the two halves. -/
theorem decodeBus_setxy (y x : Nat) :
    decodeBus (Asm.setxy y x) = .wrXy (BitVec.ofNat 16 y ++ BitVec.ofNat 16 x) := by
  rw [← BitVec.ofInt_natCast, ← BitVec.ofInt_natCast]
  exact (BusRow.wrXy _).decodeBus_eq

/-- R78, R128: CMD is a WR_CMD of its word. -/
theorem decodeBus_cmd (w : Word) : decodeBus (Asm.cmd w) = .wrCmd w := decodeBus_wrCmd w

/-- R78, R131: the read that ends the GET lines is of RESULT. -/
theorem decodeBus_rdresult : decodeBus Asm.rdresult = .rdResult := (BusRow.rdResult 0).decodeBus_eq

/-- R111: the index of an in-range byte column. -/
theorem byteIndex_ofNat {x y : Nat} (hx : x < 64) (hy : y < 480) : byteIndex x y = some (64 * y + x) := by
  rw [byteIndex_eq, if_pos (by omega), Int.toNat_natCast, Int.toNat_natCast, Nat.one_mul]

/-- R117: GETPIX8 of an in-range byte column. -/
theorem exec_getpix8_ofNat {s : State} {x y : Nat} (hx : x < 64) (hy : y < 480)
    (hxy : s.xy = BitVec.ofNat 16 y ++ BitVec.ofNat 16 x) :
    exec .getpix8 s = .next (setResult ((fbRead s (64 * y + x)).setWidth 32) s) := by
  have ha : byteIndex (opX s) (opY s) = some (64 * y + x) := by
    rw [opX_of_xy hxy (by omega), opY_of_xy hxy (by omega), byteIndex_ofNat hx hy]
  simp only [exec, execGetpix8, ha]

/-! ### HOST's turns of the line -/

/-- R50, R123: HOST has the next turn, `agents` after it, and is free to issue `t`, `rest` after it. -/
structure Issues (s : State) (agents : List Agent) (t : Transaction) (rest : List Transaction) : Prop where
  sched : s.sched = .host :: agents
  bus : s.bus = t :: rest
  phase : s.phase = .idle
  hop : s.hop = .none

section
variable {s : State} {agents : List Agent} {rest : List Transaction} (k : Nat)

/-- A run that begins with a turn in which HOST issues. -/
theorem run_of_issues {t : Transaction} {u : State} (h : Issues s agents t rest)
    (hexec : exec (decodeBus t) { s with sched := agents, bus := rest } = .next u) :
    Host.Core.run Sys2Proof.core (k + 1) s = Host.Core.run Sys2Proof.core k u :=
  run_of_step k ((hostTurnRunsTheDecodedTransaction s agents t rest h.sched h.bus h.phase h.hop).trans hexec)

/-- R129: the turn that issues SETXY. -/
theorem run_setxy {y x : Nat} (h : Issues s agents (Asm.setxy y x) rest) :
    Host.Core.run Sys2Proof.core (k + 1) s = Host.Core.run Sys2Proof.core k
      { s with sched := agents, bus := rest, xy := BitVec.ofNat 16 y ++ BitVec.ofNat 16 x } :=
  run_of_issues k h (by rw [decodeBus_setxy]; rfl)

/-- R117, R128: the turn that issues the command GETPIX8. -/
theorem run_getpix8 {y x : Nat} (h : Issues s agents (Asm.cmd 0x25000000) rest) (hx : x < 64) (hy : y < 480)
    (hxy : s.xy = BitVec.ofNat 16 y ++ BitVec.ofNat 16 x) :
    Host.Core.run Sys2Proof.core (k + 1) s = Host.Core.run Sys2Proof.core k
      (setResult ((fbRead s (64 * y + x)).setWidth 32) { s with sched := agents, bus := rest }) := by
  have hdec : decodeCommand 0x25000000 = .getpix8 := decodeCommand_append .getpix8 0
  exact run_of_issues k h (by rw [decodeBus_cmd, exec_wrCmd, hdec]; exact exec_getpix8_ofNat hx hy hxy)

/-- R131: the turn that issues the read of RESULT. -/
theorem run_rdresult (h : Issues s agents Asm.rdresult rest) :
    Host.Core.run Sys2Proof.core (k + 1) s = Host.Core.run Sys2Proof.core k
      (respond s.result { s with sched := agents, bus := rest }) :=
  run_of_issues k h (by rw [decodeBus_rdresult]; rfl)

end

/-- Settles O60: HOST writes the coordinates, GETPIX8 puts the byte in RESULT, and the read answers RESULT. -/
theorem getpixLineAnswersTheByte : Obligations.GetpixLineAnswersTheByte := by
  intro s bx y agents rest hx hy hphase hhop hsched hbus
  exact ⟨_, Eq.trans (run_setxy 2 ⟨hsched, hbus, hphase, hhop⟩)
    (Eq.trans (run_getpix8 1 ⟨rfl, rfl, hphase, hhop⟩ hx hy rfl) (run_rdresult 0 ⟨rfl, rfl, hphase, hhop⟩)),
    rfl, rfl, rfl, rfl⟩

end Sys2Proof.Machine

/-! PROOFS. The statements of 40_sequencer.md: the turns of TMR, SEQ and SER, the cursor over every step, and the
complete ticks of a run. -/

namespace Sys2Proof.Machine

open Sys2Proof.Safety

/-! ## The turns of TMR, SER and SEQ -/

theorem tmrMove_eq (s : State) : tmrMove s = { s with tickPending := s.enabled || s.tickPending } := by
  unfold tmrMove
  split_ifs with he
  · rw [he]; rfl
  · have hkeep : (s.enabled || s.tickPending) = s.tickPending := by simp [he]
    rw [hkeep]

/-- Settles O35: a scheduled turn is the agent's move, and TMR's move raises the request. -/
theorem timerRequestsOneTick : Obligations.TimerRequestsOneTick :=
  fun s agents hsched =>
    (step_of_sched hsched).trans (congrArg Host.Outcome.next (tmrMove_eq { s with sched := agents }))

/-- Settles O43: a scheduled turn is the agent's move, and SER's move looks at SER_BUSY. -/
theorem serializerCompletionDropsBusy : Obligations.SerializerCompletionDropsBusy :=
  fun _ _ hsched => step_of_sched hsched

section
variable {s : State} {agents : List Agent} (hsched : s.sched = .seq :: agents)
include hsched

/-- R83: SEQ's turn between ticks. -/
theorem step_seq_idle (hphase : s.phase = .idle) :
    step s = .next (if s.enabled = true ∧ s.tickPending = true then phase1 { s with sched := agents }
      else { s with sched := agents }) :=
  (step_of_sched hsched).trans (seqMove_idle (s := { s with sched := agents }) hphase)

/-- R86: SEQ's turn inside a tick, with a serializer that keeps R96. -/
theorem step_seq_waitSer (hphase : s.phase = .waitSer) (hser : serHandshake s) :
    step s = .next (if s.running = true ∧ s.serBusy = true then { s with sched := agents }
      else phase2 { s with sched := agents }) :=
  (step_of_sched hsched).trans (seqMove_waitSer (s := { s with sched := agents }) hphase hser)

/-- R83: with a request it is phase 1. -/
theorem step_seq_phase1 (hphase : s.phase = .idle) (henabled : s.enabled = true) (hpending : s.tickPending = true) :
    step s = .next (phase1 { s with sched := agents }) :=
  (step_seq_idle hsched hphase).trans (congrArg Host.Outcome.next (if_pos ⟨henabled, hpending⟩))

/-- R86: with nothing to wait for it is phase 2. -/
theorem step_seq_phase2 (hphase : s.phase = .waitSer) (hser : serHandshake s)
    (hready : ¬(s.running = true ∧ s.serBusy = true)) : step s = .next (phase2 { s with sched := agents }) :=
  (step_seq_waitSer hsched hphase hser).trans (congrArg Host.Outcome.next (if_neg hready))

end

theorem tickColor_eq (s : State) : tickColor s =
    if s.lpe then (if s.line.toNat < 525 then (lptRead s s.line.toNat).extractLsb' 0 2 else 0b00#2) else s.color := by
  simp only [tickColor, currentProps]
  split_ifs <;> rfl

/-- R29, R85: END is level 1. -/
theorem VTarget.level_eq (v : VTarget) : v.level = decide (v = .vend) := by cases v <;> rfl

/-- R83, R84, R85: the events of phase 1 with their levels. -/
theorem phase1Events_eq (s : State) : phase1Events s = [.hs false] ++ (if s.lpe then [.col
    (if s.line.toNat < 525 then (lptRead s s.line.toNat).extractLsb' 0 2 else 0b00#2)] else []) ++
      [.hs true, .vs (decide (s.vtarget = .vend))] := by
  rw [phase1Events, VTarget.level_eq, tickColor_eq]
  cases s.lpe <;> rfl

/-- Settles O36: SEQ's turn between ticks is phase 1 or nothing, and phase 1 is its closed form. -/
theorem phaseOneDrivesSync : Obligations.PhaseOneDrivesSync := by
  intro s agents hsched hphase
  rw [step_seq_idle hsched hphase, phase1_eq, tickColor_eq, phase1Events_eq, VTarget.level_eq, ← List.append_assoc,
    ← List.append_assoc]
  rfl

/-- Settles O37: SEQ's turn inside a tick is phase 2 or nothing, and phase 2 is its closed form. -/
theorem phaseTwoTransfersAndAdvances : Obligations.PhaseTwoTransfersAndAdvances := by
  rintro s agents l hsched hphase hser rfl
  rw [step_seq_waitSer hsched hphase hser, phase2_eq, phase2Events, ← List.append_assoc]
  rfl

/-! ## The bytes of a line -/

/-- R28, R44: the bytes of a visible line's row. -/
theorem rowBytes_of_row {s : State} {r : Fin 480} (h : s.bufsel = .row r) :
    rowBytes s = (List.range 64).map (fun k => fbRead s (64 * r.val + k)) := by
  simp only [rowBytes, h]

/-- R39: the bytes of the blank row. -/
theorem rowBytes_of_blank {s : State} (h : s.bufsel = .blank) : rowBytes s = List.replicate 64 0x00#8 := by
  simp only [rowBytes, h, blankRow]

/-- Settles O38: byte `k` of either row. -/
theorem transferHandsOverTheSelectedRow : Obligations.TransferHandsOverTheSelectedRow := by
  refine fun s => ⟨length_rowBytes s, fun k hk => ⟨fun r hr => ?_, fun hblank => ?_⟩⟩
  · simp [rowBytes_of_row hr, hk]
  · rw [rowBytes_of_blank hblank, List.getElem?_replicate_of_lt hk]

/-! ## A step as the display sees it -/

/-- R32: the scanline cursor's three registers. -/
structure CursorKept (t s : State) : Prop where
  line : t.line = s.line
  bufsel : t.bufsel = s.bufsel
  vtarget : t.vtarget = s.vtarget

/-- A step by what it does to the trace, the serializer's copy of a line and the cursor: nothing; START's cursor; a phase
of a tick; a reset. -/
inductive DisplayView (s : State) : State → Prop
  | quiet {t : State} (htrace : t.trace = s.trace) (hbuf : t.serBuf = s.serBuf) (hc : CursorKept t s) : DisplayView s t
  | start {t : State} (hi : issued s = some .start) (htrace : t.trace = s.trace) (hbuf : t.serBuf = s.serBuf)
      (hc : CursorKept t State.reset) : DisplayView s t
  | phase1 (sched : List Agent) (turn : Nat) (ha : nextAgent s = .seq) :
      DisplayView s (phase1 { s with sched := sched, turn := turn })
  | phase2 (sched : List Agent) (turn : Nat) (ha : nextAgent s = .seq) (hp : s.phase = .waitSer)
      (hr : s.running = true → s.serBusy = false ∧ s.serLive = false) :
      DisplayView s (phase2 { s with sched := sched, turn := turn })
  | reset (sched : List Agent) (turn : Nat) (ha : nextAgent s = .rst) :
      DisplayView s (resetMachine { s with sched := sched, turn := turn })

/-- R12: every step has its view. -/
theorem displayView_of_step {s t : State} (h : step s = .next t) : DisplayView s t := by
  obtain ⟨sched, turn, hm⟩ := step_cases h
  cases hm with
  | hold | request | done => exact .quiet rfl rfl ⟨rfl, rfl, rfl⟩
  | hop =>
    have ho := hopStep_outside { s with sched := sched, turn := turn }
    have hc := hopStep_control { s with sched := sched, turn := turn }
    exact .quiet ho.trace ho.serBuf ⟨hc.line, hc.bufsel, hc.vtarget⟩
  | issue b rest t ha hp hh hb he =>
    have ho := (effect_of_exec he).outside
    rcases (effectOf_of_exec he).cursor_kept_or_start with ⟨hl, hs, hv⟩ | ⟨hi, hl, hs, hv⟩
    · exact .quiet ho.trace ho.serBuf ⟨hl, hs, hv⟩
    · exact .start (by rw [issued_eq ha hp hh hb, hi]) ho.trace ho.serBuf ⟨hl, hs, hv⟩
  | phase1 ha => exact .phase1 sched turn ha
  | phase2 ha hp hr => exact .phase2 sched turn ha hp hr
  | reset ha => exact .reset sched turn ha

/-- R91: SEQ alone emits events. -/
theorem trace_eq_of_step {s t : State} (ha : nextAgent s ≠ .seq) (h : step s = .next t) : t.trace = s.trace := by
  cases displayView_of_step h with
  | quiet htrace | start _ htrace => exact htrace
  | phase1 _ _ hseq | phase2 _ _ hseq => exact absurd hseq ha
  | reset => rfl

/-- R83: phase 1 hands no line over. -/
theorem preps_phase1Events (s : State) : preps (phase1Events s) = [] := by
  cases hlpe : s.lpe <;> simp [preps, phase1Events, hlpe]

/-- Settles O44: of the views of a step only phase 2 of a running engine emits a PREP or changes the serializer's copy, a
reset apart. -/
theorem prepIsIssuedOnlyToAFreeSerializer : Obligations.PrepIsIssuedOnlyToAFreeSerializer := by
  intro s t h
  cases displayView_of_step h with
  | quiet htrace hbuf | start _ htrace hbuf => exact ⟨[], by simpa using htrace, .inl ⟨rfl, .inl hbuf⟩⟩
  | phase1 sched turn =>
    rw [phase1_eq]
    exact ⟨_, rfl, .inl ⟨preps_phase1Events _, .inl rfl⟩⟩
  | phase2 sched turn ha hp hr =>
    rw [phase2_eq]
    refine ⟨_, rfl, ?_⟩
    cases hrun : s.running with
    | false => exact .inl ⟨rfl, .inl rfl⟩
    | true => exact .inr ⟨rfl, rfl, ha, hp, rfl, (hr hrun).1⟩
  | reset _ _ ha => exact ⟨[], (List.append_nil _).symm, .inl ⟨rfl, .inr ha⟩⟩

/-! ## The cursor over every step -/

theorem CursorKept.trans {s t u : State} (hst : CursorKept t s) (htu : CursorKept u t) : CursorKept u s :=
  ⟨htu.line.trans hst.line, htu.bufsel.trans hst.bufsel, htu.vtarget.trans hst.vtarget⟩

theorem CursorKept.cursorOk {s t : State} (hc : CursorKept t s) (hs : Safety.cursorOk s) : Safety.cursorOk t := by
  obtain ⟨hl, hb, hv⟩ := hc
  simpa only [Safety.cursorOk, hl, hb, hv] using hs

/-- R83: phase 1 leaves the cursor. -/
theorem cursorKept_phase1 (s : State) : CursorKept (phase1 s) s := by
  rw [phase1_eq]
  exact ⟨rfl, rfl, rfl⟩

/-- R92: every step keeps the cursor the cursor of its line. -/
theorem cursorOk_of_step {s t : State} (hs : cursorOk s) (h : step s = .next t) : cursorOk t := by
  cases displayView_of_step h with
  | quiet _ _ hc => exact hc.cursorOk hs
  | start _ _ _ hc => exact hc.cursorOk cursorOk_reset
  | phase1 => exact (cursorKept_phase1 _).cursorOk hs
  | phase2 => exact cursorOk_phase2 hs
  | reset => exact cursorOk_reset

/-- Settles O40: the views of a step keep the cursor, or put it on line 0 or on the next line. -/
theorem stepKeepsTheCursorOnItsLine : Obligations.StepKeepsTheCursorOnItsLine := fun _ _ hs h => cursorOk_of_step hs h

/-! ## The cursor over the ticks of a run -/

/-- R90, R92: from `s` to `t` `n` ticks completed, and the cursor went `n` lines on. -/
structure Advanced (n : Nat) (s t : State) : Prop where
  cursorOk : cursorOk t
  done : ticksDone t.trace = ticksDone s.trace + n
  line : t.line.toNat = (s.line.toNat + n) % Config.totalLines

section
variable {n m : Nat} {s t u : State}

theorem CursorKept.advanced (hc : CursorKept t s) (hs : Safety.cursorOk s)
    (hdone : ticksDone t.trace = ticksDone s.trace) : Advanced 0 s t :=
  ⟨hc.cursorOk hs, hdone, by rw [hc.line, Nat.add_zero, Nat.mod_eq_of_lt hs.1]⟩

theorem Advanced.refl (hs : Safety.cursorOk s) : Advanced 0 s s := CursorKept.advanced ⟨rfl, rfl, rfl⟩ hs rfl

theorem Advanced.trans (hst : Advanced n s t) (htu : Advanced m t u) : Advanced (n + m) s u :=
  ⟨htu.cursorOk, by rw [htu.done, hst.done, Nat.add_assoc], by rw [htu.line, hst.line, Nat.mod_add_mod, Nat.add_assoc]⟩

/-- `trans` with the cursor carried along. -/
theorem Advanced.next (hst : Advanced n s t) (htu : Safety.cursorOk t → Advanced m t u) : Advanced (n + m) s u :=
  hst.trans (htu hst.cursorOk)

/-- R12: taking a turn is not seen by the cursor. -/
theorem advanced_turn (hs : cursorOk s) (sched : List Agent) (turn : Nat) :
    Advanced 0 s { s with sched := sched, turn := turn } :=
  CursorKept.advanced ⟨rfl, rfl, rfl⟩ hs rfl

/-- R83: phase 1 completes no tick. -/
theorem advanced_phase1 (hs : cursorOk s) : Advanced 0 s (phase1 s) :=
  (cursorKept_phase1 s).advanced hs (ticksDone_phase1 s)

/-- R88, R90: phase 2 completes one. -/
theorem advanced_phase2 (hs : cursorOk s) : Advanced 1 s (phase2 s) :=
  ⟨cursorOk_phase2 hs, ticksDone_phase2 s, by rw [phase2_eq]; exact toNat_nextLine s⟩

/-- R92: a line has one cursor. -/
theorem cursorKept_of_line (hs : cursorOk s) (ht : cursorOk t) (hl : t.line = s.line) : CursorKept t s := by
  obtain ⟨-, hsb, hsv⟩ := hs
  obtain ⟨-, htb, htv⟩ := ht
  rw [hl] at htb htv
  refine ⟨hl, htb.trans hsb.symm, ?_⟩
  have hv : t.vtarget = .vbegin ↔ s.vtarget = .vbegin := htv.trans hsv.symm
  cases hs : s.vtarget <;> cases ht : t.vtarget <;> simp [hs, ht] at hv ⊢

/-- R92, L1.7: the cursor `n` ticks on, back where it was after whole frames. -/
theorem Advanced.cursorAfter (h : Advanced n s t) (hs : Safety.cursorOk s) : cursorAfter n s t := by
  refine ⟨h.cursorOk, h.line, fun hframes => ?_⟩
  have hlt := hs.1
  have hline : t.line = s.line := by
    apply BitVec.eq_of_toNat_eq
    rw [h.line, Nat.add_mod, hframes, Nat.add_zero, Nat.mod_mod, Nat.mod_eq_of_lt hlt]
  obtain ⟨hl, hb, hv⟩ := cursorKept_of_line hs h.cursorOk hline
  exact ⟨hl, hb, hv⟩

/-- R92: a step that is no START and no reset moves the cursor as far as it completes ticks. -/
theorem exists_advanced_of_step (hs : cursorOk s) (h : step s = .next t) (hr : nextAgent s ≠ .rst)
    (hi : issued s ≠ some .start) : ∃ n, Advanced n s t := by
  cases displayView_of_step h with
  | quiet htrace _ hc => exact ⟨0, hc.advanced hs (congrArg ticksDone htrace)⟩
  | start hstart => exact absurd hstart hi
  | phase1 sched turn => exact ⟨_, (advanced_turn hs sched turn).next advanced_phase1⟩
  | phase2 sched turn => exact ⟨_, (advanced_turn hs sched turn).next advanced_phase2⟩
  | reset _ _ ha => exact absurd ha hr

end

/-! ## Runs -/

section
variable (M : Host.Core) {s t : M.State}

/-- A run of `k + 1` turns that answers a next state is a first step and a run of `k` turns. -/
theorem exists_step_of_run {k : Nat} (h : M.run (k + 1) s = .next t) :
    ∃ s', M.step s = .next s' ∧ M.run k s' = .next t := by
  cases hstep : M.step s with
  | next s' => exact ⟨s', rfl, by simpa [Host.Core.run, hstep] using h⟩
  | fault r => simp [Host.Core.run, hstep] at h
  | refused r => simp [Host.Core.run, hstep] at h

/-- A run whose first `k` turns answer `t` goes on from `t`. -/
theorem run_add {k : Nat} (m : Nat) (h : M.run k s = .next t) : M.run (k + m) s = M.run m t := by
  induction k generalizing s with
  | zero =>
    obtain rfl := Host.Outcome.next.inj h
    rw [Nat.zero_add]
  | succ k ih =>
    obtain ⟨s', hstep, hrun⟩ := exists_step_of_run M h
    rw [← ih hrun, Nat.add_right_comm]
    simp [Host.Core.run, hstep]

end

/-- R92: a run without START and reset moves the cursor as far as it completes ticks. -/
theorem exists_advanced_of_run {turns : Nat} {s t : State} (hs : cursorOk s)
    (h : Host.Core.run Sys2Proof.core turns s = .next t)
    (hquiet : ∀ (j : Nat) (u : State), j < turns → Host.Core.run Sys2Proof.core j s = .next u →
      nextAgent u ≠ .rst ∧ issued u ≠ some .start) : ∃ n, Advanced n s t := by
  induction turns generalizing s with
  | zero =>
    obtain rfl := Host.Outcome.next.inj h
    exact ⟨0, Advanced.refl hs⟩
  | succ turns ih =>
    obtain ⟨s', hstep, hrun⟩ := exists_step_of_run Sys2Proof.core h
    obtain ⟨hr, hi⟩ := hquiet 0 s turns.succ_pos rfl
    obtain ⟨n, hfirst⟩ := exists_advanced_of_step hs hstep hr hi
    obtain ⟨m, hrest⟩ := ih hfirst.cursorOk hrun fun j u hj hu =>
      hquiet (j + 1) u (Nat.succ_lt_succ hj) ((run_of_step j hstep).trans hu)
    exact ⟨n + m, hfirst.trans hrest⟩

/-! ## Turns of HOST, TMR and SER -/

/-- The agents of a tick but SEQ (R91). -/
abbrev sideAgent (a : Agent) : Prop := a = .host ∨ a = .tmr ∨ a = .ser

/-- HOST neither starts nor stops the engine: it holds for a tick in progress (R51), or has no START and no STOP to
issue. -/
abbrev noStartStop (s : State) : Prop :=
  s.phase = .waitSer ∨ ∀ b ∈ s.bus, commandOf (decodeBus b) ≠ .start ∧ commandOf (decodeBus b) ≠ .stop

/-- What the tick in progress and the next one see of the turns `agents` of HOST, TMR and SER that lead from `s` to
`t`. -/
structure SideTurns (agents : List Agent) (s t : State) : Prop where
  phase : t.phase = s.phase
  enabled : t.enabled = s.enabled
  lpe : t.lpe = s.lpe
  trace : t.trace = s.trace
  cursor : CursorKept t s
  bus : t.bus ⊆ s.bus
  running : s.phase = .waitSer → t.running = s.running
  handshake : serHandshake s → serHandshake t
  pending : s.enabled = true → s.tickPending = true ∨ .tmr ∈ agents → t.tickPending = true
  free : s.serBusy = false ∨ .ser ∈ agents → t.serBusy = false

theorem SideTurns.refl (s : State) : SideTurns [] s s :=
  ⟨rfl, rfl, rfl, rfl, ⟨rfl, rfl, rfl⟩, List.Subset.refl _, fun _ => rfl, id, fun _ h => by simpa using h,
    fun h => by simpa using h⟩

section
variable {s t u : State} {agents more : List Agent}

theorem SideTurns.trans (hst : SideTurns agents s t) (htu : SideTurns more t u) : SideTurns (agents ++ more) s u where
  phase := htu.phase.trans hst.phase
  enabled := htu.enabled.trans hst.enabled
  lpe := htu.lpe.trans hst.lpe
  trace := htu.trace.trans hst.trace
  cursor := hst.cursor.trans htu.cursor
  bus := List.Subset.trans htu.bus hst.bus
  running := fun hp => (htu.running (hst.phase.trans hp)).trans (hst.running hp)
  handshake := fun hs => htu.handshake (hst.handshake hs)
  pending := fun he h => by
    rw [List.mem_append, ← or_assoc] at h
    exact htu.pending (hst.enabled.trans he) (h.imp_left (hst.pending he))
  free := fun h => by
    rw [List.mem_append, ← or_assoc] at h
    exact htu.free (h.imp_left hst.free)

theorem SideTurns.noStartStop (h : SideTurns agents s t) (hs : noStartStop s) : Machine.noStartStop t :=
  hs.imp h.phase.trans fun hbus b hb => hbus b (h.bus hb)

theorem SideTurns.advanced (h : SideTurns agents s t) (hs : cursorOk s) : Advanced 0 s t :=
  h.cursor.advanced hs (congrArg ticksDone h.trace)

/-- R25, R31, R32: START and STOP alone write ENABLED, the request and the cursor. -/
theorem EffectOf.controlKept {i : Instr} (h : EffectOf s i t) (hi : i ≠ .start ∧ i ≠ .stop) : ControlKept t s := by
  obtain ⟨hstart, hstop⟩ := hi
  cases h with
  | start => exact absurd rfl hstart
  | stop => exact absurd rfl hstop
  | putpix32 | fbWr32 | fill | setprops => exact beginHop_control _ s
  | _ => exact ⟨rfl, rfl, rfl, rfl, rfl⟩

/-- A turn of HOST, from what it leaves alone but the transaction it takes. -/
theorem SideTurns.of_host {rest : List Transaction} (ho : OutsideKept t { s with sched := agents, bus := rest })
    (hc : ControlKept t { s with sched := agents, bus := rest }) (hbus : rest ⊆ s.bus)
    (hrun : s.phase = .waitSer → t.running = s.running) : SideTurns [.host] s t where
  phase := ho.phase
  enabled := hc.enabled
  lpe := ho.lpe
  trace := ho.trace
  cursor := ⟨hc.line, hc.bufsel, hc.vtarget⟩
  bus := ho.bus ▸ hbus
  running := hrun
  handshake := fun hs => ho.serLive.trans (hs.trans ho.serBusy.symm)
  pending := fun _ h => by
    rw [hc.tickPending]
    simpa using h
  free := fun h => by
    rw [ho.serBusy]
    simpa using h

/-- R50: HOST has nothing to issue. -/
theorem hostMove_nil (hphase : s.phase = .idle) (hhop : s.hop = .none) (hbus : s.bus = []) : hostMove s = .next s := by
  simp [hostMove, hphase, hhop, Hop.pending, hbus]

/-- R50, R51, R123: HOST's turn holds, goes on with the operation in flight, or issues. -/
theorem exists_sideTurn_of_host (hsched : s.sched = .host :: agents) (hs : noStartStop s) :
    ∃ t, step s = .next t ∧ t.sched = agents ∧ SideTurns [.host] s t := by
  have hold : SideTurns [.host] s { s with sched := agents } :=
    .of_host (OutsideKept.refl _) (ControlKept.refl _) (List.Subset.refl _) fun _ => rfl
  cases hp : s.phase with
  | waitSer => exact ⟨_, hostHoldsWhileATickIsInProgress s agents hsched hp, rfl, hold⟩
  | idle =>
    have hnot : s.phase ≠ .waitSer := by simp [hp]
    by_cases hh : s.hop = .none
    · cases hb : s.bus with
      | nil =>
        exact ⟨_, (step_of_sched hsched).trans (hostMove_nil (s := { s with sched := agents }) hp hh hb), rfl, hold⟩
      | cons b rest =>
        obtain ⟨t, ht, -⟩ := exec_effect (decodeBus b) { s with sched := agents, bus := rest }
        have ho := (effect_of_exec ht).outside
        have hc := (effectOf_of_exec ht).controlKept (hs.resolve_left hnot b (by simp [hb]))
        exact ⟨t, (hostTurnRunsTheDecodedTransaction s agents b rest hsched hb hp hh).trans ht, ho.sched,
          .of_host ho hc (by simp [hb]) fun h => absurd h hnot⟩
    · obtain ⟨t, ht, rfl, -⟩ := hostTurnContinuesTheOperationInFlight s agents hsched hp hh
      have ho := hopStep_outside { s with sched := agents }
      exact ⟨_, ht, ho.sched,
        .of_host ho (hopStep_control { s with sched := agents }) (List.Subset.refl _) fun h => absurd h hnot⟩

/-- R82: TMR's turn raises the request of a running engine. -/
theorem sideTurns_tmr (s : State) (agents : List Agent) :
    SideTurns [.tmr] s { s with sched := agents, tickPending := s.enabled || s.tickPending } :=
  ⟨rfl, rfl, rfl, rfl, ⟨rfl, rfl, rfl⟩, List.Subset.refl _, fun _ => rfl, id, fun he _ => by simp [he],
    fun h => by simpa using h⟩

/-- R95: SER's turn frees the serializer. -/
theorem sideTurns_ser (s : State) (agents : List Agent) :
    SideTurns [.ser] s (if s.serBusy then { s with sched := agents, serBusy := false, serLive := false }
      else { s with sched := agents }) := by
  split_ifs with hb
  · exact ⟨rfl, rfl, rfl, rfl, ⟨rfl, rfl, rfl⟩, List.Subset.refl _, fun _ => rfl, fun _ => rfl,
      fun _ h => by simpa using h, fun _ => rfl⟩
  · exact ⟨rfl, rfl, rfl, rfl, ⟨rfl, rfl, rfl⟩, List.Subset.refl _, fun _ => rfl, id,
      fun _ h => by simpa using h, fun _ => by simpa using hb⟩

/-- Each of the three agents' turns answers. -/
theorem exists_sideTurn {a : Agent} (ha : sideAgent a) (hsched : s.sched = a :: agents) (hs : noStartStop s) :
    ∃ t, step s = .next t ∧ t.sched = agents ∧ SideTurns [a] s t := by
  rcases ha with rfl | rfl | rfl
  · exact exists_sideTurn_of_host hsched hs
  · exact ⟨_, timerRequestsOneTick s agents hsched, rfl, sideTurns_tmr s agents⟩
  · exact ⟨_, serializerCompletionDropsBusy s agents hsched, by split_ifs <;> rfl, sideTurns_ser s agents⟩

/-- Any number of them in a run. -/
theorem exists_sideTurns {rest : List Agent} (ha : ∀ a ∈ agents, sideAgent a) (hsched : s.sched = agents ++ rest)
    (hs : noStartStop s) : ∃ t, Host.Core.run Sys2Proof.core agents.length s = .next t ∧ t.sched = rest ∧
      SideTurns agents s t := by
  induction agents generalizing s with
  | nil => exact ⟨s, rfl, hsched, .refl s⟩
  | cons a agents ih =>
    obtain ⟨t, hstep, htsched, hfirst⟩ := exists_sideTurn (ha a List.mem_cons_self) hsched hs
    obtain ⟨u, hrun, husched, hrest⟩ :=
      ih (fun b hb => ha b (List.mem_cons_of_mem a hb)) htsched (hfirst.noStartStop hs)
    exact ⟨u, (run_of_step _ hstep).trans hrun, husched, hfirst.trans hrest⟩

end

/-! ## Complete ticks -/

/-- R83, R86, R91: a tick with turns of HOST, TMR and SER between its phases: phase 1, those turns, phase 2. -/
theorem run_tick {s : State} {between rest : List Agent} (hsched : s.sched = .seq :: (between ++ .seq :: rest))
    (ha : ∀ a ∈ between, sideAgent a) (hphase : s.phase = .idle) (henabled : s.enabled = true)
    (hpending : s.tickPending = true) (hser : serHandshake s)
    (hfree : s.running = true → s.serBusy = true → .ser ∈ between) :
    ∃ u, SideTurns between (phase1 { s with sched := between ++ .seq :: rest }) u ∧
      Host.Core.run Sys2Proof.core (between.length + 2) s = .next (phase2 { u with sched := rest }) := by
  have hphase1 := step_seq_phase1 hsched hphase henabled hpending
  obtain ⟨u, hrun, husched, hu⟩ := exists_sideTurns (s := phase1 { s with sched := between ++ .seq :: rest }) ha
    (by rw [phase1_eq]) (.inl (by rw [phase1_eq]))
  refine ⟨u, hu, ?_⟩
  rw [phase1_eq] at hu
  have hready : ¬(u.running = true ∧ u.serBusy = true) := by
    rintro ⟨hr, hb⟩
    have hrunning : s.running = true := (hu.running rfl).symm.trans hr
    have hdone : s.serBusy = false ∨ .ser ∈ between := by
      cases hbusy : s.serBusy with
      | false => exact .inl rfl
      | true => exact .inr (hfree hrunning hbusy)
    exact Bool.false_ne_true ((hu.free hdone).symm.trans hb)
  have hphase2 := step_seq_phase2 husched hu.phase (hu.handshake hser) hready
  exact (run_of_step (between.length + 1) hphase1).trans ((run_add Sys2Proof.core 1 hrun).trans (run_of_step 0 hphase2))

/-- Settles O39: the events of phase 1, none of the turns between, the events of phase 2. -/
theorem completeTickEmitsItsTrace : Obligations.CompleteTickEmitsItsTrace := by
  refine ⟨?_, fun s t => trace_eq_of_step⟩
  intro s between rest hsched ha hphase henabled hpending hser hfree
  obtain ⟨u, hu, hrun⟩ := run_tick hsched ha hphase henabled hpending hser hfree
  refine ⟨_, tickColor s, s.vtarget.level, rowBytes u, hrun, by rw [phase2_eq], ?_⟩
  rw [phase1_eq] at hu
  have htrace : u.trace = s.trace ++ phase1Events s := hu.trace
  have hrunning : u.running = s.running := hu.running rfl
  have hline : u.line = s.line := hu.cursor.line
  rw [phase2_eq]
  show u.trace ++ ((if u.running then [.prep u.line (rowBytes u), .xmit] else []) ++ [.ka]) = _
  rw [htrace, hrunning, hline, phase1Events]
  simp only [List.append_assoc]

/-- The engine is ready for a tick of line LINE: it runs, no tick is in progress, and HOST does not start or stop it. -/
structure Ready (s : State) : Prop where
  cursor : cursorOk s
  handshake : serHandshake s
  phase : s.phase = .idle
  enabled : s.enabled = true
  bus : ∀ b ∈ s.bus, commandOf (decodeBus b) ≠ .start ∧ commandOf (decodeBus b) ≠ .stop

/-- R82, R91, R95: a tick with its request before it and a completion of the serializer somewhere before its phase 2. -/
theorem exists_run_tickTurns {s : State} {p : List Agent × List Agent} {rest : List Agent} (hs : Ready s)
    (ha : ∀ a ∈ p.1 ++ p.2, sideAgent a) (htmr : .tmr ∈ p.1) (hser : .ser ∈ p.1 ++ p.2)
    (hsched : s.sched = tickTurns p ++ rest) :
    ∃ t, Host.Core.run Sys2Proof.core (tickTurns p).length s = .next t ∧ t.sched = rest ∧ Ready t ∧ Advanced 1 s t := by
  obtain ⟨before, between⟩ := p
  rw [List.forall_mem_append] at ha
  have hsched' : s.sched = before ++ .seq :: (between ++ .seq :: rest) := by simpa [tickTurns] using hsched
  obtain ⟨t, hrun, htsched, ht⟩ := exists_sideTurns ha.1 hsched' (.inr hs.bus)
  have henabled : t.enabled = true := ht.enabled.trans hs.enabled
  have hfree : t.running = true → t.serBusy = true → .ser ∈ between := fun _ hbusy =>
    (List.mem_append.1 hser).resolve_left fun hbefore =>
      Bool.false_ne_true ((ht.free (.inr hbefore)).symm.trans hbusy)
  obtain ⟨u, hu, htick⟩ := run_tick htsched ha.2 (ht.phase.trans hs.phase) henabled
    (ht.pending hs.enabled (.inr htmr)) (ht.handshake hs.handshake) hfree
  have hadv : Advanced 1 s (phase2 { u with sched := rest }) :=
    (ht.advanced hs.cursor).next (advanced_turn · _ t.turn) |>.next advanced_phase1 |>.next hu.advanced
      |>.next (advanced_turn · rest u.turn) |>.next advanced_phase2
  refine ⟨phase2 { u with sched := rest }, ?_, by rw [phase2_eq], ?_, hadv⟩
  · have hlength : (tickTurns (before, between)).length = before.length + (between.length + 2) := by
      simp [tickTurns]
    rw [hlength]
    exact (run_add Sys2Proof.core _ hrun).trans htick
  · have hcursor := hadv.cursorOk
    rw [phase1_eq] at hu
    have hlive : u.serLive = u.serBusy := hu.handshake (ht.handshake hs.handshake)
    rw [phase2_eq] at hcursor ⊢
    exact ⟨hcursor, congrArg (u.running || ·) hlive, rfl, hu.enabled.trans henabled,
      fun b hb => hs.bus b (ht.bus (hu.bus hb))⟩

/-- R92: any number of such ticks. -/
theorem exists_run_ticks {s : State} {ticks : List (List Agent × List Agent)} {rest : List Agent} (hs : Ready s)
    (hticks : ∀ p ∈ ticks, (∀ a ∈ p.1 ++ p.2, sideAgent a) ∧ .tmr ∈ p.1 ∧ .ser ∈ p.1 ++ p.2)
    (hsched : s.sched = (ticks.map tickTurns).flatten ++ rest) :
    ∃ t, Host.Core.run Sys2Proof.core (ticks.map tickTurns).flatten.length s = .next t ∧ t.sched = rest ∧ Ready t ∧
      Advanced ticks.length s t := by
  induction ticks generalizing s with
  | nil => exact ⟨s, rfl, hsched, hs, .refl hs.cursor⟩
  | cons p ticks ih =>
    obtain ⟨ha, htmr, hser⟩ := hticks p List.mem_cons_self
    rw [List.map_cons, List.flatten_cons, List.append_assoc] at hsched
    obtain ⟨t, hrun, htsched, ht, hfirst⟩ := exists_run_tickTurns hs ha htmr hser hsched
    obtain ⟨u, hrun', husched, hu, hrest⟩ := ih ht (fun q hq => hticks q (List.mem_cons_of_mem p hq)) htsched
    refine ⟨u, ?_, husched, hu, ?_⟩
    · rw [List.map_cons, List.flatten_cons, List.length_append]
      exact (run_add Sys2Proof.core _ hrun).trans hrun'
    · rw [List.length_cons, Nat.add_comm]
      exact hfirst.trans hrest

/-- Settles O41: every step moves the cursor as far as it completes ticks, and the ticks of the schedule complete. -/
theorem cursorIsPeriodicInTheTickCount : Obligations.CursorIsPeriodicInTheTickCount := by
  constructor
  · intro turns k s t hs hrun hquiet hk
    obtain ⟨n, hadv⟩ := exists_advanced_of_run hs hrun hquiet
    obtain rfl : n = k := Nat.add_left_cancel (hadv.done.symm.trans hk)
    exact hadv.cursorAfter hs
  · intro ticks rest s hs hser hphase henabled hbus hticks hsched
    obtain ⟨t, hrun, htsched, ht, hadv⟩ := exists_run_ticks ⟨hs, hser, hphase, henabled, hbus⟩ hticks hsched
    exact ⟨t, hrun, ht.phase, htsched, hadv.done, hadv.cursorAfter hs⟩

/-! ## What a tick puts out -/

/-- R28, R87: the bytes of the cursor's line. -/
theorem rowBytes_of_cursorOk {s : State} (hs : cursorOk s) : rowBytes s =
    if s.line.toNat ≤ 479 then (List.range 64).map (fun k => fbRead s (64 * s.line.toNat + k))
    else List.replicate 64 0x00#8 := by
  obtain ⟨-, hbuf, -⟩ := hs
  by_cases hvisible : s.line.toNat < 480
  · rw [bufselOf, dif_pos hvisible] at hbuf
    rw [if_pos (by omega), rowBytes_of_row hbuf]
  · rw [bufselOf, dif_neg hvisible] at hbuf
    rw [if_neg (by omega), rowBytes_of_blank hbuf]

/-- R110: the table reads 0x00 past the visible lines. -/
theorem lptRead_of_le {s : State} {l : Nat} (hs : Memory.lptWf s.lpt) (hl : 480 ≤ l) : lptRead s l = 0x00#8 := by
  rw [lptRead, Memory.lookup_of_le hs.1 hl, Option.getD_none]

/-- R84, R93: the colour of the cursor's line. -/
theorem tickColor_of_cursorOk {s : State} (hs : cursorOk s) (hlpt : Memory.lptWf s.lpt) : tickColor s =
    if s.lpe then (if s.line.toNat ≤ 479 then (lptRead s s.line.toNat).extractLsb' 0 2 else 0b00#2) else s.color := by
  rw [tickColor_eq, if_pos hs.1]
  by_cases hvisible : s.line.toNat ≤ 479
  · rw [if_pos hvisible]
  · rw [if_neg hvisible, lptRead_of_le hlpt (by omega)]
    rfl

/-- R85, R93: VSYNC_N is 0 on the lines 490 and 491. -/
theorem level_of_cursorOk {s : State} (hs : cursorOk s) :
    s.vtarget.level = decide (¬(490 ≤ s.line.toNat ∧ s.line.toNat ≤ 491)) := by
  obtain ⟨-, -, hv⟩ := hs
  have hlines : s.vtarget = .vbegin ↔ 490 ≤ s.line.toNat ∧ s.line.toNat ≤ 491 :=
    hv.trans (by simp only [Config.vsyncBeginLine, Config.vsyncEndLine]; omega)
  rw [VTarget.level_eq, decide_eq_decide, ← hlines]
  cases s.vtarget <;> simp

/-- Settles O42: the tick is phase 1 and phase 2, and each of its outputs is a function of the cursor's line. -/
theorem tickOutputIsAFunctionOfItsLine : Obligations.TickOutputIsAFunctionOfItsLine := by
  rintro s rest n ⟨-, hlpt, hcursor, -, -, -, hser, -⟩ rfl hsched hphase henabled hpending hfree
  have hready : ¬(s.running = true ∧ s.serBusy = true) := fun ⟨hrun, hbusy⟩ =>
    Bool.false_ne_true ((hfree hrun).symm.trans hbusy)
  have hphase2 : step (phase1 { s with sched := .seq :: rest }) =
      .next (phase2 { phase1 { s with sched := .seq :: rest } with sched := rest }) := by
    rw [phase1_eq]
    exact step_seq_phase2 rfl rfl hser hready
  refine ⟨_, (run_of_step 1 (step_seq_phase1 hsched hphase henabled hpending)).trans (run_of_step 0 hphase2), ?_⟩
  rw [phase2_eq, phase1_eq]
  refine ⟨tickColor_of_cursorOk hcursor hlpt, level_of_cursorOk hcursor, rfl, fun hrun => ?_, rfl, rfl, rfl, rfl, rfl,
    rfl, rfl, rfl, rfl, rfl⟩
  exact (if_pos hrun).trans (rowBytes_of_cursorOk hcursor)

end Sys2Proof.Machine

/-! PROOFS. The statements of 41_control.md: the control commands alone and in a WR_CMD, and the stopped engine. -/

namespace Sys2Proof.Machine

open Sys2Proof.Safety

/-! ## Command words -/

/-- Settles O9: WR_CMD is the command it carries, and every instruction answers. -/
theorem writeCommandExecutesItsWord : Obligations.WriteCommandExecutesItsWord := by
  intro w s
  obtain ⟨t, ht, -⟩ := exec_effect (.wrCmd w) s
  exact ⟨exec_wrCmd w s, t, ht⟩

/-- R67, R128: WR_CMD of a word of an opcode, whatever CMD[23:0] holds. -/
theorem exec_wrCmd_append (o : Opcode) (c : BitVec 24) (s : State) :
    exec (.wrCmd (o.code ++ c)) s = exec (o.instr (o.code ++ c)) s := by
  rw [exec_wrCmd, decodeCommand_append]

/-- Settles O13: each command is its own assignment, and no bit of CMD[23:0] reaches it through WR_CMD. -/
theorem controlCommandsWriteTheirBits : Obligations.ControlCommandsWriteTheirBits := by
  intro s c
  exact ⟨rfl, exec_wrCmd_append .nop c s, rfl, exec_wrCmd_append .start c s, rfl, exec_wrCmd_append .stop c s,
    rfl, exec_wrCmd_append .pause c s, rfl, exec_wrCmd_append .resume c s⟩

/-! ## The stopped engine -/

/-- R102, R103: only START starts a stopped engine. -/
theorem EffectOf.enabled_eq_false {s t : State} {i : Instr} (h : EffectOf s i t) (hi : i ≠ .start)
    (he : s.enabled = false) : t.enabled = false := by
  cases h with
  | start => exact absurd rfl hi
  | stop => rfl
  | putpix32 | fbWr32 | fill | setprops => exact (beginHop_control _ s).enabled.trans he
  | _ => exact he

/-- Settles O53: without ENABLED no request is raised and phase 1 does not begin, between ticks there is no phase 2, and
of HOST's effects only START sets ENABLED or moves the cursor; no effect of HOST's is seen outside. -/
theorem stoppedEngineIsQuietUntilStart : Obligations.StoppedEngineIsQuietUntilStart := by
  intro s t hstopped hidle h hr hstart
  obtain ⟨sched, turn, hm⟩ := step_cases h
  cases hm with
  | hold | done => exact ⟨hstopped, hidle, rfl, rfl, rfl, rfl, rfl, rfl, rfl⟩
  | hop =>
    have ho := hopStep_outside { s with sched := sched, turn := turn }
    have hc := hopStep_control { s with sched := sched, turn := turn }
    exact ⟨hc.enabled.trans hstopped, ho.phase.trans hidle, ho.trace, ho.hsyncN, ho.vsyncN, ho.color, hc.line, hc.bufsel,
      hc.vtarget⟩
  | issue b rest t ha hp hh hb he =>
    have hi : commandOf (decodeBus b) ≠ .start := fun hi => hstart (by rw [issued_eq ha hp hh hb, hi])
    have ho := (effect_of_exec he).outside
    have heff := effectOf_of_exec he
    obtain ⟨hline, hbufsel, hvtarget⟩ := heff.cursor_kept_or_start.resolve_right fun hs => hi hs.1
    exact ⟨heff.enabled_eq_false hi hstopped, ho.phase.trans hidle, ho.trace, ho.hsyncN, ho.vsyncN, ho.color, hline,
      hbufsel, hvtarget⟩
  | phase1 _ _ he | request _ he => simp [hstopped] at he
  | phase2 _ hp => simp [hidle] at hp
  | reset ha => exact absurd ha hr

end Sys2Proof.Machine

/-! PROOFS. The statements of 42_lineprops.md: SETPROP, SETPROPS and GETPROP, the build without line properties, and the
entries of the blanking lines. -/

namespace Sys2Proof.Machine

open Sys2Proof.Safety

/-! ## One entry -/

section
variable {line : BitVec 16} {s : State}

/-- R106: SETPROP of a visible line. -/
theorem exec_setprop_of_visible (mask : Byte) (h : s.lpe = true ∧ 0 ≤ s16 line ∧ s16 line < 480) :
    exec (.setprop mask line) s = .next (lptWrite (s16 line).toNat mask s) := by
  simp only [exec, execSetprop, propIndex_eq, if_pos h]

/-- R106, R109: SETPROP of any other line or build. -/
theorem exec_setprop_of_not_visible (mask : Byte) (h : ¬(s.lpe = true ∧ 0 ≤ s16 line ∧ s16 line < 480)) :
    exec (.setprop mask line) s = .next s := by
  simp only [exec, execSetprop, propIndex_eq, if_neg h]

end

/-- R108: GETPROP, whatever the line and the build. -/
theorem exec_getprop (line : BitVec 16) (s : State) : exec (.getprop line) s = .next (setResult
    (if s.lpe = true ∧ 0 ≤ s16 line ∧ s16 line < 480 then (lptRead s (s16 line).toNat).setWidth 32 else 0x00000000#32)
    s) := by
  simp only [exec, execGetprop, propIndex_eq]
  split_ifs <;> rfl

/-- Settles O14: SETPROP is one entry write or nothing, and a written entry reads back in its place alone. -/
theorem setpropWritesOneVisibleEntry : Obligations.SetpropWritesOneVisibleEntry := by
  intro mask line s
  by_cases hvisible : s.lpe = true ∧ 0 ≤ s16 line ∧ s16 line < 480
  · refine ⟨_, exec_setprop_of_visible mask hvisible, rfl, fun l => ?_⟩
    obtain ⟨hlpe, hlo, hhi⟩ := hvisible
    have hentry : l = (s16 line).toNat ↔ s16 line = l := by omega
    simp only [lptRead_lptWrite, hentry, hlpe, hlo, hhi, true_and]
  · refine ⟨s, exec_setprop_of_not_visible mask hvisible, rfl, fun l => (if_neg fun h => hvisible ?_).symm⟩
    obtain ⟨hlpe, hlo, hhi, -⟩ := h
    exact ⟨hlpe, hlo, hhi⟩

/-- Settles O16: GETPROP writes RESULT alone. -/
theorem getpropReadsAVisibleEntry : Obligations.GetpropReadsAVisibleEntry := exec_getprop

/-- Settles O17: GETPROP reads the entry that SETPROP wrote. -/
theorem setpropThenGetpropGivesTheMask : Obligations.SetpropThenGetpropGivesTheMask := by
  intro mask line s hlpe hlo hhi
  refine ⟨_, _, exec_setprop_of_visible mask ⟨hlpe, hlo, hhi⟩, exec_getprop line _, ?_⟩
  rw [setResult_result, lptWrite_lpe, if_pos ⟨hlpe, hlo, hhi⟩, lptRead_lptWrite, if_pos rfl]

/-! ## A range of entries -/

/-- R107: the first line of the range. -/
theorem clampLo_eq (start : Int) : (clampLo start : Int) = max 0 start := by
  simp only [clampLo]
  omega

/-- R107: the line after the range. -/
theorem clampHi_eq (stop : Int) : (clampHi stop : Int) = max 0 (min stop 480) := by
  simp only [clampHi, Config.visibleLines]
  omega

section
variable {line : BitVec 16} {s : State}

/-- R107: SETPROPS of a range that is not empty takes its first entry step. -/
theorem exec_setprops_of_range (mask : Byte) (h : s.lpe = true ∧ clampLo (s16 line) < clampHi (opEndl s)) :
    exec (.setprops mask line) s =
      .next (beginHop (.props (clampLo (s16 line)) (clampHi (opEndl s)) mask) s) := by
  simp only [exec, execSetprops, if_pos h]

/-- R107, R109: SETPROPS of an empty range or in a build without line properties. -/
theorem exec_setprops_of_empty (mask : Byte) (h : ¬(s.lpe = true ∧ clampLo (s16 line) < clampHi (opEndl s))) :
    exec (.setprops mask line) s = .next s := by
  simp only [exec, execSetprops, if_neg h]

end

/-- Settles O15: the operation in flight runs over the clamped range, whose bounds are those of the statement. -/
theorem setpropsWritesTheClampedRangeInOrder : Obligations.SetpropsWritesTheClampedRangeInOrder := by
  intro mask line s lo hi hlo hhi
  have hfirst : (clampLo (s16 line) : Int) = lo := hlo ▸ clampLo_eq _
  have hstop : (clampHi (opEndl s) : Int) = max 0 hi := hhi ▸ clampHi_eq _
  have hnonempty : clampLo (s16 line) < clampHi (opEndl s) ↔ lo < hi := by omega
  rw [← hnonempty]
  refine ⟨exec_setprops_of_empty mask, fun hrange => ⟨_, exec_setprops_of_range mask hrange, fun j hj => ?_⟩⟩
  obtain ⟨hhop, hframe, hread⟩ :=
    hopRun_props (j + 1) (clampLo (s16 line)) (clampHi (opEndl s)) mask s (by omega) j.succ_pos
  rw [beginHop_run]
  refine ⟨hframe, ?_, fun l => ?_⟩
  · have hlast : clampLo (s16 line) + (j + 1) = clampHi (opEndl s) ↔ lo + j + 1 = hi := by omega
    rw [hhop, ← hlast]
    split_ifs with hdone <;> simp [hdone]
  · have hbounds : clampLo (s16 line) ≤ l ∧ l < clampLo (s16 line) + (j + 1) ↔ lo ≤ l ∧ l ≤ lo + j := by omega
    rw [hread, if_congr hbounds rfl rfl]

/-! ## A build without line properties -/

/-- R109: what a build without line properties keeps. -/
structure PropsAbsent (s : State) : Prop where
  lpe : s.lpe = false
  lpt : s.lpt = []
  color : s.color = 0b00#2

theorem propsAbsent_of_lpeOk {s : State} (hs : lpeOk s) (hlpe : s.lpe = false) : PropsAbsent s :=
  ⟨hlpe, (hs hlpe).1, (hs hlpe).2⟩

section
variable {s t : State}

theorem PropsAbsent.lpeOk (hs : PropsAbsent s) : Safety.lpeOk s := fun _ => ⟨hs.lpt, hs.color⟩

theorem PropsAbsent.lptRead_eq (hs : PropsAbsent s) (l : Nat) : lptRead s l = 0x00#8 := by
  rw [lptRead, hs.lpt]
  rfl

/-- R109: no SETPROPS is in flight. -/
theorem hopStep_lpt_of_not_lpe (hlpe : s.lpe = false) (hhop : hopOk s) : (hopStep s).lpt = s.lpt := by
  unfold hopOk at hhop
  rcases hopStep_cases s with ⟨h, -⟩ | ⟨_, _, -, h⟩ | ⟨_, _, _, _, -, h⟩ | ⟨_, _, -, h⟩ | ⟨_, _, _, hprops, -⟩
  · rw [h]
  · rw [h]; rfl
  · rw [h]; rfl
  · rw [h]; rfl
  · rw [hprops] at hhop
    exact absurd (hlpe.symm.trans hhop.1) Bool.false_ne_true

/-- R109: no instruction writes the table. -/
theorem Effect.lpt_of_not_lpe (h : Effect s t) (hlpe : s.lpe = false) : t.lpt = s.lpt := by
  cases h with
  | lpt l v h | props lo hi mask h => exact absurd (hlpe.symm.trans h.1) Bool.false_ne_true
  | bytes => exact beginHop_bytes_lpt _ _ _ s
  | fill => exact beginHop_fill_lpt 0 _ s
  | _ => rfl

/-- R84, R109: phase 1 leaves COLOR. -/
theorem tickColor_of_not_lpe (hlpe : s.lpe = false) : tickColor s = s.color := if_neg (by simp [hlpe])

/-- R109: every step of a build without line properties leaves the table empty and COLOR 0b00. -/
theorem PropsAbsent.of_step (hs : PropsAbsent s) (hhop : hopOk s) (h : step s = .next t) : PropsAbsent t := by
  obtain ⟨sched, turn, hm⟩ := step_cases h
  have hu : PropsAbsent { s with sched := sched, turn := turn } := ⟨hs.lpe, hs.lpt, hs.color⟩
  cases hm with
  | hold => exact hu
  | request | done => exact ⟨hu.lpe, hu.lpt, hu.color⟩
  | hop =>
    have ho := hopStep_outside { s with sched := sched, turn := turn }
    exact ⟨ho.lpe.trans hu.lpe, (hopStep_lpt_of_not_lpe hu.lpe hhop).trans hu.lpt, ho.color.trans hu.color⟩
  | issue b rest t ha hp hh hb he =>
    have heff := effect_of_exec he
    have ho := heff.outside
    exact ⟨ho.lpe.trans hu.lpe, (heff.lpt_of_not_lpe hu.lpe).trans hu.lpt, ho.color.trans hu.color⟩
  | phase1 =>
    rw [phase1_eq]
    exact ⟨hu.lpe, hu.lpt, (tickColor_of_not_lpe hu.lpe).trans hu.color⟩
  | phase2 =>
    rw [phase2_eq]
    exact ⟨hu.lpe, hu.lpt, hu.color⟩
  | reset => exact ⟨hu.lpe, rfl, rfl⟩

end

/-- Settles O18: without LINE_PROPS_ENABLED no line is visible to the three commands, phase 1 skips the property byte, and
every step keeps `PropsAbsent`. -/
theorem withoutLinePropsTheFeatureIsAbsent : Obligations.WithoutLinePropsTheFeatureIsAbsent := by
  intro mask line s t hlpe
  have hbuild {p : Prop} : ¬(s.lpe = true ∧ p) := fun h => Bool.false_ne_true (hlpe.symm.trans h.1)
  refine ⟨exec_setprop_of_not_visible mask hbuild, exec_setprops_of_empty mask hbuild, ?_, ?_, fun hs hhop h => ?_,
    (getLsbD_status s 4).trans hlpe⟩
  · rw [exec_getprop, if_neg hbuild]
    rfl
  · rw [phase1_eq, phase1Events_eq, tickColor_of_not_lpe hlpe, hlpe]
    exact ⟨rfl, rfl⟩
  · have ht := (propsAbsent_of_lpeOk hs hlpe).of_step hhop h
    exact ⟨ht.lpe, ht.lptRead_eq, ht.lpeOk⟩

/-! ## The blanking lines -/

/-- Settles O57: no entry past the visible lines is listed, and phase 1 takes its colour from the entry of its line. -/
theorem blankingEntriesAreZero : Obligations.BlankingEntriesAreZero := by
  rintro s ⟨-, hlpt, hcursor, -⟩
  refine ⟨fun l hl => lptRead_of_le hlpt hl, fun hline hlpe => ?_⟩
  rw [phase1_eq]
  show tickColor s = 0b00#2
  rw [tickColor_of_cursorOk hcursor hlpt, if_pos hlpe, if_neg (by omega)]

end Sys2Proof.Machine

/-! PROOFS. The statements of 43_pixel.md: the combine function, the PUT and GET commands, FILL, and the three views of the
framebuffer. -/

namespace Sys2Proof.Machine

open Sys2Proof.Safety

/-! ## The combine function -/

section
variable (o n k : Byte) (i : Nat)

/-- R112: a lane of SET. -/
theorem getLsbD_comb_set : (comb .set o n k).getLsbD i = if k.getLsbD i then n.getLsbD i else o.getLsbD i := by
  cases hk : k.getLsbD i
  · have ho : o.getLsbD i = true → i < 8 := BitVec.lt_of_getLsbD
    simpa [comb, hk] using ho
  · simp [comb, hk]

/-- R112: a lane of OR. -/
theorem getLsbD_comb_or : (comb .or o n k).getLsbD i = (o.getLsbD i || (n.getLsbD i && k.getLsbD i)) := by
  rw [comb, BitVec.getLsbD_or, BitVec.getLsbD_and]

/-- R112: a lane of XOR. -/
theorem getLsbD_comb_xor : (comb .xor o n k).getLsbD i = (o.getLsbD i ^^ (n.getLsbD i && k.getLsbD i)) := by
  rw [comb, BitVec.getLsbD_xor, BitVec.getLsbD_and]

end

/-- Settles O19: each mode is a bitwise operation, so its lanes are that operation on bits. -/
theorem combineIsBitwisePerLane : Obligations.CombineIsBitwisePerLane := by
  refine ⟨fun o n k i => ⟨getLsbD_comb_set o n k i, getLsbD_comb_or o n k i, getLsbD_comb_xor o n k i⟩,
    fun o n k => ?_, fun o n k hnone => ?_⟩
  · simp only [comb, BitVec.xor_assoc, BitVec.xor_self, BitVec.xor_zero]
  · simp only [comb, hnone]
    exact ⟨BitVec.or_zero, BitVec.xor_zero⟩

/-- R112: the combine function on one bit `o` that is updated from `n`. -/
def combineBit (mode : Mode) (o n : Bool) : Bool :=
  match mode with
  | .set => n
  | .or => o || n
  | .xor => o ^^ n
  | .reserved => o

/-- R112: only the lanes of the mask are updated. -/
theorem getLsbD_comb (mode : Mode) (o n k : Byte) (i : Nat) : (comb mode o n k).getLsbD i =
    if k.getLsbD i then combineBit mode (o.getLsbD i) (n.getLsbD i) else o.getLsbD i := by
  cases mode with
  | set => exact getLsbD_comb_set o n k i
  | or => cases hk : k.getLsbD i <;> simp [getLsbD_comb_or, combineBit, hk]
  | xor => cases hk : k.getLsbD i <;> simp [getLsbD_comb_xor, combineBit, hk]
  | reserved => exact (ite_self _).symm

/-- R113: the lane mask of a pixel holds its bit alone. -/
theorem getLsbD_pixelMask {b i : Nat} (hi : i < 8) : (0x01#8 <<< b).getLsbD i = decide (b = i) := by
  rw [BitVec.getLsbD_shiftLeft, BitVec.getLsbD_one]
  grind

/-- R113: a pixel value as a bit. -/
theorem getLsbD_zero_eq_beq_one : ∀ v : BitVec 1, v.getLsbD 0 = (v == 1) := by decide

/-- R113: the pixel's value lies in the pixel's bit. -/
theorem getLsbD_pixelValue (v : BitVec 1) {i : Nat} (hi : i < 8) : (v.setWidth 8 <<< i).getLsbD i = (v == 1) := by
  simpa [hi] using getLsbD_zero_eq_beq_one v

/-- R112: a read after one byte of a write. -/
@[simp] theorem fbRead_combineByte (mode : Mode) (a c : Nat) (n k : Byte) (s : State) :
    fbRead (combineByte mode a n k s) c = if c = a then comb mode (fbRead s a) n k else fbRead s c := by
  rw [combineByte_eq, fbRead_fbWrite]

/-- R113: one byte step of PUTPIX updates bit `b` of byte `a` and no other bit. -/
theorem getLsbD_fbRead_putpix (mode : Mode) (v : BitVec 1) (a b c i : Nat) (s : State) (hi : i < 8) :
    (fbRead (combineByte mode a (v.setWidth 8 <<< b) (0x01#8 <<< b) s) c).getLsbD i =
      if a = c ∧ b = i then combineBit mode ((fbRead s c).getLsbD i) (v == 1) else (fbRead s c).getLsbD i := by
  rw [fbRead_combineByte]
  by_cases hc : c = a
  · subst hc
    rw [if_pos rfl, getLsbD_comb, getLsbD_pixelMask hi]
    by_cases hb : b = i
    · subst hb
      simp [getLsbD_pixelValue v hi]
    · simp [hb]
  · rw [if_neg hc, if_neg fun h => hc h.1.symm]

/-! ## The units' places in the framebuffer -/

/-- R111: the byte and the bit of a pixel, as integers. -/
theorem pixelIndex_toNat (x y : Int) : pixelIndex x y =
    if 0 ≤ x ∧ x < 512 ∧ 0 ≤ y ∧ y < 480 then some ((64 * y + x / 8).toNat, (7 - x % 8).toNat) else none := by
  rw [pixelIndex_eq]
  split_ifs
  · congr 2 <;> omega
  · rfl

/-- R111: the byte of a byte column, as an integer. -/
theorem byteIndex_toNat (x y : Int) : byteIndex x y =
    if 0 ≤ x ∧ x < 64 ∧ 0 ≤ y ∧ y < 480 then some (64 * y + x).toNat else none := by
  rw [byteIndex_eq]
  split_ifs
  · congr 1; omega
  · rfl

/-- R111: the first byte of a word column, as an integer. -/
theorem wordIndex_toNat (x y : Int) : wordIndex x y =
    if 0 ≤ x ∧ x < 16 ∧ 0 ≤ y ∧ y < 480 then some (64 * y + 4 * x).toNat else none := by
  rw [wordIndex_eq]
  split_ifs
  · congr 1; omega
  · rfl

/-- R111: the byte and the bit of an in-range pixel. -/
theorem pixelIndex_ofNat {x y : Nat} (hx : x < 512) (hy : y < 480) :
    pixelIndex x y = some (64 * y + x / 8, 7 - x % 8) := by
  rw [pixelIndex_eq, if_pos (by omega), Int.toNat_natCast, Int.toNat_natCast]

/-! ## The PUT commands -/

section
variable {mode : Mode} {s : State}

/-- R113: PUTPIX of an in-range pixel. -/
theorem exec_putpix_of_some (v : BitVec 1) {a b : Nat} (hm : mode ≠ .reserved)
    (h : pixelIndex (opX s) (opY s) = some (a, b)) :
    exec (.putpix mode v) s = .next (combineByte mode a (v.setWidth 8 <<< b) (0x01#8 <<< b) s) := by
  simp only [exec, execPutpix, if_neg hm, h]

/-- R76, R113: PUTPIX in MODE 0b11 or out of range. -/
theorem exec_putpix_of_none (v : BitVec 1) (h : mode ≠ .reserved → pixelIndex (opX s) (opY s) = none) :
    exec (.putpix mode v) s = .next s := by
  simp only [exec, execPutpix]
  split_ifs with hm
  · rfl
  · rw [h hm]

/-- R114: PUTPIX8 of an in-range byte column. -/
theorem exec_putpix8_of_some (d8 : Byte) {a : Nat} (hm : mode ≠ .reserved)
    (h : byteIndex (opX s) (opY s) = some a) :
    exec (.putpix8 mode d8) s = .next (combineByte mode a d8 0xFF#8 s) := by
  simp only [exec, execPutpix8, if_neg hm, h]

/-- R76, R114: PUTPIX8 in MODE 0b11 or out of range. -/
theorem exec_putpix8_of_none (d8 : Byte) (h : mode ≠ .reserved → byteIndex (opX s) (opY s) = none) :
    exec (.putpix8 mode d8) s = .next s := by
  simp only [exec, execPutpix8]
  split_ifs with hm
  · rfl
  · rw [h hm]

/-- R115: PUTPIX32 of an in-range word column takes its first byte step. -/
theorem exec_putpix32_of_some {a : Nat} (hm : mode ≠ .reserved) (h : wordIndex (opX s) (opY s) = some a) :
    exec (.putpix32 mode) s = .next (beginHop (.bytes mode a (bytesBE s.data)) s) := by
  simp only [exec, execPutpix32, if_neg hm, h]

/-- R76, R115: PUTPIX32 in MODE 0b11 or out of range. -/
theorem exec_putpix32_of_none (h : mode ≠ .reserved → wordIndex (opX s) (opY s) = none) :
    exec (.putpix32 mode) s = .next s := by
  simp only [exec, execPutpix32]
  split_ifs with hm
  · rfl
  · rw [h hm]

end

/-- Settles O20: PUTPIX is one byte step whose mask is the pixel's bit, or nothing. -/
theorem putpixUpdatesOneBit : Obligations.PutpixUpdatesOneBit := by
  intro mode v s x y hx hy
  have hplace : pixelIndex (opX s) (opY s) = _ := (congrArg₂ pixelIndex hx.symm hy.symm).trans (pixelIndex_toNat x y)
  by_cases hok : mode ≠ .reserved ∧ 0 ≤ x ∧ x < 512 ∧ 0 ≤ y ∧ y < 480
  · obtain ⟨hm, hrange⟩ := hok
    refine ⟨_, exec_putpix_of_some v hm (hplace.trans (if_pos hrange)), rfl, fun a i hi => ?_⟩
    have hbit : (64 * y + x / 8).toNat = a ∧ (7 - x % 8).toNat = i ↔ 64 * y + x / 8 = a ∧ 7 - x % 8 = i := by omega
    rw [getLsbD_fbRead_putpix _ _ _ _ _ _ _ hi]
    exact if_congr (by tauto) rfl rfl
  · exact ⟨s, exec_putpix_of_none v fun hm => hplace.trans (if_neg fun hrange => hok ⟨hm, hrange⟩), rfl,
      fun a i _ => (if_neg (by tauto)).symm⟩

/-- Settles O21: PUTPIX8 is one byte step over all lanes, or nothing. -/
theorem putpix8CombinesOneByte : Obligations.Putpix8CombinesOneByte := by
  intro mode d8 s x y hx hy
  have hplace : byteIndex (opX s) (opY s) = _ := (congrArg₂ byteIndex hx.symm hy.symm).trans (byteIndex_toNat x y)
  by_cases hok : mode ≠ .reserved ∧ 0 ≤ x ∧ x < 64 ∧ 0 ≤ y ∧ y < 480
  · obtain ⟨hm, hrange⟩ := hok
    refine ⟨_, exec_putpix8_of_some d8 hm (hplace.trans (if_pos hrange)), rfl, fun a => ?_⟩
    have hbyte : a = (64 * y + x).toNat ↔ 64 * y + x = a := by omega
    rw [fbRead_combineByte]
    by_cases ha : a = (64 * y + x).toNat
    · rw [if_pos ha, if_pos (by tauto), ha]
    · rw [if_neg ha, if_neg (by tauto)]
  · exact ⟨s, exec_putpix8_of_none d8 fun hm => hplace.trans (if_neg fun hrange => hok ⟨hm, hrange⟩), rfl,
      fun a => (if_neg (by tauto)).symm⟩

/-- R115: the bytes of a pixel word by their place in the order of storing. -/
theorem getD_bytesBE (w : Word) {i : Nat} (hi : i < 4) : (bytesBE w).getD i 0 = w.extractLsb' (24 - 8 * i) 8 := by
  interval_cases i <;> rfl

/-- Settles O22: the operation in flight runs over the four bytes of DATA from the index of the word column. -/
theorem putpix32CombinesFourBytesInOrder : Obligations.Putpix32CombinesFourBytesInOrder := by
  intro mode s x y hx hy
  have hplace : wordIndex (opX s) (opY s) = _ := (congrArg₂ wordIndex hx.symm hy.symm).trans (wordIndex_toNat x y)
  refine ⟨fun hnot => exec_putpix32_of_none fun hm => hplace.trans (if_neg fun hrange => hnot ⟨hm, hrange⟩),
    fun ⟨hm, hrange⟩ => ⟨_, exec_putpix32_of_some hm (hplace.trans (if_pos hrange)), fun j hj => ?_⟩⟩
  obtain ⟨hhop, hframe, hread⟩ :=
    hopRun_bytes mode (j + 1) (64 * y + 4 * x).toNat (bytesBE s.data) s (Nat.succ_le_succ hj) j.succ_pos
  rw [beginHop_run]
  refine ⟨hframe, ?_, fun b => ?_⟩
  · have hlast : j + 1 = (bytesBE s.data).length ↔ j = 3 := Nat.succ_inj
    rw [hhop, ← hlast]
    split_ifs with hdone <;> simp [hdone]
  · rw [hread]
    by_cases hb : 64 * y + 4 * x ≤ b ∧ b ≤ 64 * y + 4 * x + j
    · rw [if_pos hb, if_pos (by omega), getD_bytesBE _ (by omega)]
    · rw [if_neg hb, if_neg (by omega)]

/-! ## The GET commands -/

/-- R116: what GETPIX puts in RESULT of the byte it reads. -/
theorem setWidth_shiftRight_and_one (o : Byte) (b : Nat) :
    ((o >>> b) &&& 0x01#8).setWidth 32 = (BitVec.ofBool (o.getLsbD b)).setWidth 32 := by
  apply BitVec.eq_of_getLsbD_eq
  intro i hi
  rw [BitVec.getLsbD_setWidth, BitVec.getLsbD_and, BitVec.getLsbD_ushiftRight, BitVec.getLsbD_setWidth,
    BitVec.getLsbD_ofBool]
  cases i <;> simp

/-- R46: the big-endian word at an index given as an integer. -/
theorem wordBE_toNat (s : State) {a : Int} (ha : 0 ≤ a) : wordBE s a.toNat =
    fbRead s a.toNat ++ fbRead s (a + 1).toNat ++ fbRead s (a + 2).toNat ++ fbRead s (a + 3).toNat := by
  lift a to Nat using ha
  rfl

section
variable (s : State)

/-- R116: GETPIX, whatever the place. -/
theorem exec_getpix : exec .getpix s = .next (setResult
    (if 0 ≤ opX s ∧ opX s < 512 ∧ 0 ≤ opY s ∧ opY s < 480 then
      (BitVec.ofBool ((fbRead s (64 * opY s + opX s / 8).toNat).getLsbD (7 - opX s % 8).toNat)).setWidth 32
    else 0x00000000#32) s) := by
  simp only [exec, execGetpix, pixelIndex_toNat, setWidth_shiftRight_and_one]
  split_ifs <;> rfl

/-- R117: GETPIX8, whatever the place. -/
theorem exec_getpix8 : exec .getpix8 s = .next (setResult
    (if 0 ≤ opX s ∧ opX s < 64 ∧ 0 ≤ opY s ∧ opY s < 480 then
      (fbRead s (64 * opY s + opX s).toNat).setWidth 32
    else 0x00000000#32) s) := by
  simp only [exec, execGetpix8, byteIndex_toNat]
  split_ifs <;> rfl

/-- R118: GETPIX32, whatever the place. -/
theorem exec_getpix32 : exec .getpix32 s = .next (setResult
    (if 0 ≤ opX s ∧ opX s < 16 ∧ 0 ≤ opY s ∧ opY s < 480 then
      fbRead s (64 * opY s + 4 * opX s).toNat ++ fbRead s (64 * opY s + 4 * opX s + 1).toNat ++
        fbRead s (64 * opY s + 4 * opX s + 2).toNat ++ fbRead s (64 * opY s + 4 * opX s + 3).toNat
    else 0x00000000#32) s) := by
  simp only [exec, execGetpix32, wordIndex_toNat]
  split_ifs with hrange
  · rw [← wordBE_toNat s (by omega)]
  · rfl

end

/-- Settles O23: each GET command writes RESULT alone. -/
theorem getCommandsReadTheFramebuffer : Obligations.GetCommandsReadTheFramebuffer := by
  rintro s x y rfl rfl
  exact ⟨exec_getpix s, exec_getpix8 s, exec_getpix32 s⟩

/-- R113: a pixel value as the bit it is stored in. -/
theorem ofBool_beq_one : ∀ v : BitVec 1, BitVec.ofBool (v == 1) = v := by decide

/-- Settles O24: GETPIX reads the bit that PUTPIX SET wrote. -/
theorem putpixThenGetpixGivesThePixel : Obligations.PutpixThenGetpixGivesThePixel := by
  intro v s hsome
  have hplace := pixelIndex_toNat (opX s) (opY s)
  by_cases hrange : 0 ≤ opX s ∧ opX s < 512 ∧ 0 ≤ opY s ∧ opY s < 480
  · refine ⟨_, _, exec_putpix_of_some v (by decide) (hplace.trans (if_pos hrange)), exec_getpix _, ?_⟩
    refine (if_pos hrange).trans ?_
    change (BitVec.ofBool ((fbRead _ (64 * opY s + opX s / 8).toNat).getLsbD (7 - opX s % 8).toNat)).setWidth 32 = _
    rw [getLsbD_fbRead_putpix _ _ _ _ _ _ _ (by omega), if_pos ⟨rfl, rfl⟩, combineBit, ofBool_beq_one]
  · rw [hplace, if_neg hrange] at hsome
    exact absurd hsome (by decide)

/-! ## FILL -/

/-- Settles O25: the operation in flight runs over the whole framebuffer. -/
theorem fillWritesEveryByteInOrder : Obligations.FillWritesEveryByteInOrder := by
  refine fun d8 s => ⟨_, rfl, fun j hj => ?_⟩
  obtain ⟨hhop, hframe, hread⟩ := hopRun_fill (j + 1) 0 d8 s (by simp only [Config.fbBytes]; omega) j.succ_pos
  simp only [Nat.zero_add, Nat.zero_le, true_and, Nat.lt_succ_iff] at hhop hread
  rw [beginHop_run]
  refine ⟨hframe, ?_, hread⟩
  have hlast : j + 1 = Config.fbBytes ↔ j = 30719 := Nat.succ_inj
  rw [hhop, ← hlast]
  split_ifs with hdone <;> simp [hdone]

/-! ## The three views -/

/-- R116: GETPIX of an in-range pixel. -/
theorem exec_getpix_ofNat {s : State} {x y : Nat} (hx : x < 512) (hy : y < 480)
    (hxy : s.xy = BitVec.ofNat 16 y ++ BitVec.ofNat 16 x) : exec .getpix s = .next (setResult
      ((BitVec.ofBool ((fbRead s (64 * y + x / 8)).getLsbD (7 - x % 8))).setWidth 32) s) := by
  have ha : pixelIndex (opX s) (opY s) = some (64 * y + x / 8, 7 - x % 8) := by
    rw [opX_of_xy hxy (by omega), opY_of_xy hxy (by omega), pixelIndex_ofNat hx hy]
  simp only [exec, execGetpix, ha, setWidth_shiftRight_and_one]

/-- R118: GETPIX32 of an in-range word column. -/
theorem exec_getpix32_ofNat {s : State} {x y : Nat} (hx : x < 16) (hy : y < 480)
    (hxy : s.xy = BitVec.ofNat 16 y ++ BitVec.ofNat 16 x) :
    exec .getpix32 s = .next (setResult (wordBE s (64 * y + 4 * x)) s) := by
  have ha : wordIndex (opX s) (opY s) = some (64 * y + 4 * x) := by
    rw [opX_of_xy hxy (by omega), opY_of_xy hxy (by omega), wordIndex_ofNat hx hy]
  simp only [exec, execGetpix32, ha]

/-- R124: FB_RD8 of a backed byte. -/
theorem exec_fbRd8_ofNat {a : Nat} (s : State) (ha : a < 30720) :
    exec (.fbRd8 (BitVec.ofNat 15 a)) s = .next (respond ((fbRead s a).setWidth 32) s) := by
  have hoff : (BitVec.ofNat 15 a).toNat = a := by rw [BitVec.toNat_ofNat, Nat.mod_eq_of_lt (by omega)]
  simp only [exec, execFbRd8, hoff, if_pos ha]

/-- A bit of a byte on a 32-bit port. -/
theorem getLsbD_setWidth_byte (o : Byte) {k : Nat} (hk : k < 8) : (o.setWidth 32).getLsbD k = o.getLsbD k := by
  rw [BitVec.getLsbD_setWidth, decide_eq_true (by omega : k < 32), Bool.true_and]

/-- R46: the bytes of a big-endian word, from its most significant one. -/
theorem extractLsb'_wordBE (s : State) (a : Nat) {i : Nat} (hi : i < 4) :
    (wordBE s a).extractLsb' (24 - 8 * i) 8 = fbRead s (a + i) := by
  rw [← getD_bytesBE _ hi, wordBE, word32, bytesBE_append]
  interval_cases i <;> rfl

/-- R46, R120: a bit of a big-endian word. -/
theorem getLsbD_wordBE (s : State) (a : Nat) {i k : Nat} (hi : i < 4) (hk : k < 8) :
    (wordBE s a).getLsbD (24 - 8 * i + k) = (fbRead s (a + i)).getLsbD k := by
  rw [← extractLsb'_wordBE s a hi, BitVec.getLsbD_extractLsb', decide_eq_true hk, Bool.true_and]

/-- Settles O26: each of the four answers shows the bit of the pixel's byte. -/
theorem pixelByteAndWordViewsAgree : Obligations.PixelByteAndWordViewsAgree := by
  intro s x y hx hy
  refine ⟨_, _, _, _, exec_getpix_ofNat hx hy rfl, exec_getpix8_ofNat (by omega) hy rfl,
    exec_getpix32_ofNat (by omega) hy rfl, exec_fbRd8_ofNat s (by omega), ?_⟩
  have hword : (wordBE s (64 * y + 4 * (x / 32))).getLsbD (31 - x % 32) =
      (fbRead s (64 * y + x / 8)).getLsbD (7 - x % 8) := by
    have hbit := getLsbD_wordBE s (64 * y + 4 * (x / 32)) (i := x / 8 % 4) (k := 7 - x % 8) (by omega) (by omega)
    rwa [show 24 - 8 * (x / 8 % 4) + (7 - x % 8) = 31 - x % 32 by omega,
      show 64 * y + 4 * (x / 32) + x / 8 % 4 = 64 * y + x / 8 by omega] at hbit
  have hbyte := getLsbD_setWidth_byte (fbRead s (64 * y + x / 8)) (k := 7 - x % 8) (by omega)
  exact ⟨congrArg (fun p => (BitVec.ofBool p).setWidth 32) hbyte.symm, hbyte.trans hword.symm, rfl⟩

end Sys2Proof.Machine

/-! PROOFS. The statements of 44_bus.md: the raw window, the host registers, and the register accesses that no register
answers. -/

namespace Sys2Proof.Machine

open Sys2Proof.Safety

/-! ## A raw word write -/

section
variable {off : BitVec 15}

/-- R127: FB_WR32 of an aligned, backed word takes its first byte step. -/
theorem exec_fbWr32_of_backed (d : Word) (s : State) (h : off.toNat % 4 = 0 ∧ off.toNat + 3 < 30720) :
    exec (.fbWr32 off d) s = .next (beginHop (.bytes .set off.toNat (bytesLE d)) s) := by
  simp only [exec, execFbWr32, if_pos ((rawWordOk_iff off).2 h)]

/-- R127, log 12: FB_WR32 of a misaligned or unbacked word. -/
theorem exec_fbWr32_of_unbacked (d : Word) (s : State) (h : ¬(off.toNat % 4 = 0 ∧ off.toNat + 3 < 30720)) :
    exec (.fbWr32 off d) s = .next s := by
  simp only [exec, execFbWr32, if_neg (mt (rawWordOk_iff off).1 h)]

end

/-- R47: the bytes of a raw word by their place in the order of storing. -/
theorem getD_bytesLE (w : Word) {i : Nat} (hi : i < 4) : (bytesLE w).getD i 0 = w.extractLsb' (8 * i) 8 := by
  interval_cases i <;> rfl

/-- Settles O29: the operation in flight runs over the four bytes of the word, and SET of all lanes replaces a byte. -/
theorem rawWordWriteStoresFourBytesInOrder : Obligations.RawWordWriteStoresFourBytesInOrder := by
  rintro off d s _ rfl
  refine ⟨exec_fbWr32_of_unbacked d s, fun h => ⟨_, exec_fbWr32_of_backed d s h, fun j hj => ?_⟩⟩
  obtain ⟨hhop, hframe, hread⟩ :=
    hopRun_bytes .set (j + 1) off.toNat (bytesLE d) s (Nat.succ_le_succ hj) j.succ_pos
  rw [beginHop_run]
  refine ⟨hframe, ?_, fun b => ?_⟩
  · have hlast : j + 1 = (bytesLE d).length ↔ j = 3 := Nat.succ_inj
    rw [hhop, ← hlast]
    split_ifs with hdone <;> simp [hdone]
  · rw [hread, comb_set_all]
    by_cases hb : off.toNat ≤ b ∧ b ≤ off.toNat + j
    · rw [if_pos hb, if_pos (by omega), getD_bytesLE _ (by omega)]
    · rw [if_neg hb, if_neg (by omega)]

/-! ## Register accesses that no register answers -/

/-- R65: the BT words of the 32-bit accesses that a register answers: three writes and five reads. -/
def answeredWords : List (BitVec 18) :=
  [0x38000#18, 0x38004#18, 0x38008#18, 0x18000#18, 0x18004#18, 0x18008#18, 0x1800C#18, 0x18010#18]

/-- R65: a 32-bit access to a named register is one of them. -/
theorem mkBt_mem_answeredWords {we : Bool} {off : BitVec 15} (h : namedRegister we off = true) :
    mkBt we true true off ∈ answeredWords := by
  cases we with
  | true =>
    have hoff : off = 0x0000#15 ∨ off = 0x0004#15 ∨ off = 0x0008#15 := by simpa [namedRegister] using h
    rcases hoff with rfl | rfl | rfl <;> decide
  | false =>
    have hoff : off = 0x0000#15 ∨ off = 0x0004#15 ∨ off = 0x0008#15 ∨ off = 0x000C#15 ∨ off = 0x0010#15 := by
      simpa [namedRegister] using h
    rcases hoff with rfl | rfl | rfl | rfl | rfl <;> decide

section
variable {b : Transaction} (hreg : btReg b.bt = true)
include hreg

/-- R65: an 8-bit access to the register window. -/
theorem decodeBus_of_regByte (hsz : btSz b.bt = false) : decodeBus b = .regByte (btWe b.bt) (btOff b.bt) := by
  have hbt : mkBt (btWe b.bt) false true (btOff b.bt) = b.bt := by
    conv_rhs => rw [← mkBt_fields b.bt, hsz, hreg]
  have hrow := (BusRow.regByte (btWe b.bt) (btOff b.bt) b.wdata).decodeBus_eq
  rwa [hbt] at hrow

/-- R65: a 32-bit access to the register window outside the named registers. -/
theorem decodeBus_of_regOther32 (hsz : btSz b.bt = true) (hnot : b.bt ∉ answeredWords) :
    decodeBus b = .regOther32 (btWe b.bt) (btOff b.bt) := by
  have hbt : mkBt (btWe b.bt) true true (btOff b.bt) = b.bt := by
    conv_rhs => rw [← mkBt_fields b.bt, hsz, hreg]
  have hunnamed : namedRegister (btWe b.bt) (btOff b.bt) = false :=
    Bool.eq_false_of_not_eq_true fun hnamed => hnot (hbt ▸ mkBt_mem_answeredWords hnamed)
  have hrow := (BusRow.regOther32 (btWe b.bt) (btOff b.bt) b.wdata hunnamed).decodeBus_eq
  rwa [hbt] at hrow

end

/-- Settles O33: an access outside the named registers lies in a catch-all row, which answers as no register. -/
theorem unansweredRegisterAccessHasNoEffect : Obligations.UnansweredRegisterAccessHasNoEffect :=
  fun _ _ hreg => ⟨fun hsz hnot => ⟨decodeBus_of_regOther32 hreg hsz hnot, rfl⟩,
    fun hsz => ⟨decodeBus_of_regByte hreg hsz, rfl⟩⟩

/-! ## Raw reads and the raw byte write -/

/-- R47, R126: FB_RD32, whatever the offset. -/
theorem exec_fbRd32 (off : BitVec 15) (s : State) : exec (.fbRd32 off) s = .next (respond
    (if off.toNat % 4 ≠ 0 ∨ off.toNat + 3 ≥ 30720 then 0x00000000#32 else wordLE s off.toNat) s) := by
  simp only [exec, execFbRd32, rawWordOk_iff]
  split_ifs with hok hbad
  · omega
  · rfl
  · rfl
  · omega

/-- Settles O27: each read answers on RDATA, from the bytes at its offset or 0. -/
theorem rawReadsAnswerFramebufferBytes : Obligations.RawReadsAnswerFramebufferBytes := by
  rintro off s _ rfl
  exact ⟨rfl, exec_fbRd32 off s⟩

/-- Settles O28: a backed byte is one framebuffer write; the tail is none. -/
theorem rawByteWriteStoresOneByte : Obligations.RawByteWriteStoresOneByte := by
  intro off d s
  by_cases hin : off.toNat < 30720
  · refine ⟨_, if_pos hin, rfl, fun a => ?_⟩
    rw [fbRead_fbWrite]
    exact if_congr (by tauto) rfl rfl
  · exact ⟨s, if_neg hin, rfl, fun a => (if_neg (by tauto)).symm⟩

/-! ## The host registers -/

/-- Settles O31: each access is its own assignment, and a write followed by its read answers the written word. -/
theorem hostRegistersReadAsWritten : Obligations.HostRegistersReadAsWritten :=
  fun _ _ => ⟨rfl, rfl, rfl, rfl, rfl, rfl, rfl, rfl, rfl⟩

end Sys2Proof.Machine

/-! PROOFS. The statement of 60_exceptions.md about stops: under the handshake every agent's move answers, and every step
keeps the handshake. -/

namespace Sys2Proof.Machine

open Sys2Proof.Safety

/-! ## Every move answers -/

/-- R50, R100: HOST holds, goes on with the operation in flight, or runs an instruction, and every instruction answers. -/
theorem exists_hostMove (s : State) : ∃ t, hostMove s = .next t := by
  unfold hostMove
  split
  · exact ⟨s, rfl⟩
  · split_ifs
    · exact ⟨hopStep s, rfl⟩
    · split
      · exact ⟨s, rfl⟩
      · rename_i b rest _
        obtain ⟨t, ht, -⟩ := exec_effect (decodeBus b) { s with bus := rest }
        exact ⟨t, ht⟩

/-- R96, R97: under the handshake SEQ never finds a line still shifting out once SER_BUSY is 0. -/
theorem exists_seqMove {s : State} (hs : serHandshake s) : ∃ t, seqMove s = .next t := by
  cases hphase : s.phase with
  | idle => exact ⟨_, seqMove_idle hphase⟩
  | waitSer => exact ⟨_, seqMove_waitSer hphase hs⟩

/-- R134: SEQ's move is the only one that needs the handshake. -/
theorem exists_agentMove (a : Agent) {s : State} (hs : serHandshake s) : ∃ t, agentMove a s = .next t := by
  cases a with
  | host => exact exists_hostMove s
  | seq => exact exists_seqMove hs
  | tmr => exact ⟨tmrMove s, rfl⟩
  | ser => exact ⟨serMove s, rfl⟩
  | rst => exact ⟨resetMachine s, rfl⟩

/-- R12: whose turn it is does not touch the serializer. -/
theorem serHandshake_takeTurn {s : State} (hs : serHandshake s) : serHandshake (takeTurn s) := by
  rw [takeTurn_eq]
  exact hs

/-! ## Every step keeps the handshake -/

/-- R96: no instruction touches SER_BUSY or the transfer in flight. -/
theorem OutsideKept.serHandshake {s t : State} (h : OutsideKept t s) (hs : Safety.serHandshake s) :
    Safety.serHandshake t := h.serLive.trans (hs.trans h.serBusy.symm)

/-- R86, R95, R96, R150: phase 2 raises both bits of the serializer, its completion and a reset drop both, and no other move
touches them. -/
theorem serHandshake_of_step {s t : State} (hs : serHandshake s) (h : step s = .next t) : serHandshake t := by
  obtain ⟨sched, turn, hm⟩ := step_cases h
  cases hm with
  | hold | request => exact hs
  | hop => exact (hopStep_outside _).serHandshake hs
  | issue b rest t ha hp hh hb he => exact (effect_of_exec he).outside.serHandshake hs
  | phase1 =>
    rw [phase1_eq]
    exact hs
  | phase2 =>
    rw [phase2_eq]
    exact congrArg (s.running || ·) hs
  | done | reset => rfl

/-- Settles O47: the agent in turn answers, and its step keeps the handshake. -/
theorem engineNeverStopsUnderTheHandshake : Obligations.EngineNeverStopsUnderTheHandshake := by
  intro s hs
  obtain ⟨t, ht⟩ := exists_agentMove (nextAgent s) (serHandshake_takeTurn hs)
  exact ⟨t, ht, serHandshake_of_step hs ht⟩

end Sys2Proof.Machine

/-! PROOFS. The statements of 70_reset_and_hazards.md: the sync side apart from the framebuffer, the hang of a serializer that
never completes, the paused engine, 93 U1's fault, and the state after a reset. -/

namespace Sys2Proof.Machine

open Sys2Proof.Safety

/-! ## The view of the named updates -/

theorem withoutPixels_withoutPixels (e : Event) : withoutPixels (withoutPixels e) = withoutPixels e := by
  cases e <;> rfl

theorem map_withoutPixels_twice (trace : List Event) :
    (trace.map withoutPixels).map withoutPixels = trace.map withoutPixels := by
  simp [withoutPixels_withoutPixels]

/-- R153: two states that differ only in what the view leaves out. -/
theorem syncView_congr {s t : State}
    (h : { t with
      fb := s.fb, fbEpoch := s.fbEpoch, serBuf := s.serBuf, result := s.result, rdata := s.rdata, trace := s.trace } = s)
    (htrace : t.trace.map withoutPixels = s.trace.map withoutPixels) : syncView t = syncView s :=
  (congrArg (fun trace => { syncView t with trace := trace }) htrace).trans (congrArg syncView h)

section
variable (s : State)

/-- R153: what the view leaves out is left out once. -/
@[simp] theorem syncView_syncView : syncView (syncView s) = syncView s :=
  syncView_congr rfl (map_withoutPixels_twice s.trace)

@[simp] theorem syncView_fbWrite (a : Nat) (v : Byte) : syncView (fbWrite a v s) = syncView s := rfl
@[simp] theorem syncView_combineByte (mode : Mode) (a : Nat) (n k : Byte) :
    syncView (combineByte mode a n k s) = syncView s := rfl
@[simp] theorem syncView_setResult (v : Word) : syncView (setResult v s) = syncView s := rfl
@[simp] theorem syncView_respond (v : Word) : syncView (respond v s) = syncView s := rfl
@[simp] theorem syncView_lptWrite (l : Nat) (v : Byte) : syncView (lptWrite l v s) = lptWrite l v (syncView s) := rfl
@[simp] theorem syncView_setHop (h : Hop) : syncView (setHop h s) = setHop h (syncView s) := rfl

/-! ## What the moves look at is in the view -/

@[simp] theorem syncView_hop : (syncView s).hop = s.hop := rfl
@[simp] theorem syncView_running : (syncView s).running = s.running := rfl
@[simp] theorem syncView_line : (syncView s).line = s.line := rfl
@[simp] theorem syncView_data : (syncView s).data = s.data := rfl
@[simp] theorem syncView_lpe : (syncView s).lpe = s.lpe := rfl
@[simp] theorem opX_syncView : opX (syncView s) = opX s := rfl
@[simp] theorem opY_syncView : opY (syncView s) = opY s := rfl
@[simp] theorem opEndl_syncView : opEndl (syncView s) = opEndl s := rfl
@[simp] theorem propIndex_syncView (l : BitVec 16) : propIndex (syncView s) l = propIndex s l := rfl

/-! ## Moves as the view sees them -/

/-- R51: a step of the operation in flight. -/
@[simp] theorem syncView_hopStep_syncView : syncView (hopStep (syncView s)) = syncView (hopStep s) := by
  cases h : s.hop with
  | none => simp [hopStep, h]
  | bytes mode a rest => cases rest <;> simp [hopStep, h]
  | fill a d8 => simp [hopStep, h]
  | props l stop mask => simp [hopStep, h]

@[simp] theorem syncView_beginHop_syncView (h : Hop) : syncView (beginHop h (syncView s)) = syncView (beginHop h s) :=
  syncView_hopStep_syncView (setHop h s)

/-- R83: phase 1 drives the outputs from the cursor and the line-properties table. -/
theorem syncView_phase1_syncView : syncView (phase1 (syncView s)) = syncView (phase1 s) := by
  refine syncView_congr (by rw [phase1_eq, phase1_eq]; rfl) ?_
  rw [phase1_eq, phase1_eq]
  simp only [List.map_append]
  exact congrArg (· ++ _) (map_withoutPixels_twice s.trace)

/-- R86, R87: the bytes of the row are the only pixels of phase 2. -/
theorem map_withoutPixels_phase2Events_syncView :
    (phase2Events (syncView s)).map withoutPixels = (phase2Events s).map withoutPixels := by
  cases hrun : s.running <;> simp [phase2Events, withoutPixels, hrun]

theorem syncView_phase2_syncView : syncView (phase2 (syncView s)) = syncView (phase2 s) := by
  refine syncView_congr (by rw [phase2_eq, phase2_eq]; rfl) ?_
  rw [phase2_eq, phase2_eq]
  simp only [List.map_append, map_withoutPixels_phase2Events_syncView]
  exact congrArg (· ++ _) (map_withoutPixels_twice s.trace)

theorem syncView_tmrMove : syncView (tmrMove s) = tmrMove (syncView s) := apply_ite syncView _ _ _

theorem syncView_serMove : syncView (serMove s) = serMove (syncView s) := apply_ite syncView _ _ _

theorem syncView_resetMachine_syncView : syncView (resetMachine (syncView s)) = syncView (resetMachine s) :=
  syncView_congr rfl (map_withoutPixels_twice s.trace)

theorem syncView_takeTurn : syncView (takeTurn s) = takeTurn (syncView s) := by
  cases h : s.sched <;> simp [takeTurn, syncView, h]

end

/-! ## Outcomes as the view sees them -/

/-- R153: an outcome with its next state seen by `syncView`. -/
def syncResult : Result → Result
  | .next t => .next (syncView t)
  | .fault r => .fault r
  | .refused r => .refused r

@[simp] theorem syncResult_next (t : State) : syncResult (.next t) = .next (syncView t) := rfl

theorem exists_next_of_syncResult {r : Result} {v : State} (h : syncResult r = .next v) :
    ∃ t, r = .next t ∧ v = syncView t := by
  cases r with
  | next t => exact ⟨t, rfl, (Host.Outcome.next.inj h).symm⟩
  | fault r => cases h
  | refused r => cases h

section
variable (s : State)

/-- A move that leaves the state. -/
theorem syncResult_hold : syncResult (.next (syncView s)) = syncResult (.next s) :=
  congrArg Host.Outcome.next (syncView_syncView s)

theorem syncResult_execSetprop (mask : Byte) (line : BitVec 16) :
    syncResult (execSetprop mask line (syncView s)) = syncResult (execSetprop mask line s) := by
  cases h : propIndex s line <;> simp [execSetprop, h]

theorem syncResult_execSetprops (mask : Byte) (line : BitVec 16) :
    syncResult (execSetprops mask line (syncView s)) = syncResult (execSetprops mask line s) := by
  by_cases h : s.lpe = true ∧ clampLo (s16 line) < clampHi (opEndl s) <;> simp [execSetprops, h]

theorem syncResult_execPutpix (mode : Mode) (v : BitVec 1) :
    syncResult (execPutpix mode v (syncView s)) = syncResult (execPutpix mode v s) := by
  by_cases hm : mode = .reserved
  · simp [execPutpix, hm]
  · cases h : pixelIndex (opX s) (opY s) <;> simp [execPutpix, hm, h]

theorem syncResult_execPutpix8 (mode : Mode) (d8 : Byte) :
    syncResult (execPutpix8 mode d8 (syncView s)) = syncResult (execPutpix8 mode d8 s) := by
  by_cases hm : mode = .reserved
  · simp [execPutpix8, hm]
  · cases h : byteIndex (opX s) (opY s) <;> simp [execPutpix8, hm, h]

theorem syncResult_execPutpix32 (mode : Mode) :
    syncResult (execPutpix32 mode (syncView s)) = syncResult (execPutpix32 mode s) := by
  by_cases hm : mode = .reserved
  · simp [execPutpix32, hm]
  · cases h : wordIndex (opX s) (opY s) <;> simp [execPutpix32, hm, h]

theorem syncResult_execFbWr8 (off : BitVec 15) (d : Byte) :
    syncResult (execFbWr8 off d (syncView s)) = syncResult (execFbWr8 off d s) := by
  by_cases h : off.toNat < Config.fbBytes <;> simp [execFbWr8, h]

theorem syncResult_execFbWr32 (off : BitVec 15) (d : Word) :
    syncResult (execFbWr32 off d (syncView s)) = syncResult (execFbWr32 off d s) := by
  by_cases h : rawWordOk off = true <;> simp [execFbWr32, h]

/-- R23, R64: the view sees nothing of an instruction that writes RESULT or RDATA alone. -/
theorem syncResult_of_read {i : Instr}
    (h : ∀ u, ∃ v, exec i u = .next (setResult v u) ∨ exec i u = .next (respond v u)) :
    syncResult (exec i (syncView s)) = syncResult (exec i s) := by
  have unseen : ∀ u, syncResult (exec i u) = .next (syncView u) := fun u => by
    obtain ⟨v, hv | hv⟩ := h u
    · rw [hv, syncResult_next, syncView_setResult]
    · rw [hv, syncResult_next, syncView_respond]
  rw [unseen, unseen, syncView_syncView]

theorem syncResult_noRegister (we : Bool) : syncResult (.next (noRegister we (syncView s))) =
    syncResult (.next (noRegister we s)) := by
  cases we <;> simp [noRegister]

/-- R153: what an instruction other than WR_CMD does to the view it does from the view alone: its operands are in the view,
and what it reads out of the framebuffer goes where the view does not look. -/
theorem syncResult_exec_of_ne_wrCmd {i : Instr} (hi : ∀ w, i ≠ .wrCmd w) :
    syncResult (exec i (syncView s)) = syncResult (exec i s) := by
  cases i with
  | nop | reservedOpc | start | stop | pause | resume | wrXy | wrData =>
    exact congrArg Host.Outcome.next (syncView_congr rfl (map_withoutPixels_twice s.trace))
  | setprop mask line => exact syncResult_execSetprop s mask line
  | setprops mask line => exact syncResult_execSetprops s mask line
  | putpix mode v => exact syncResult_execPutpix s mode v
  | putpix8 mode d8 => exact syncResult_execPutpix8 s mode d8
  | putpix32 mode => exact syncResult_execPutpix32 s mode
  | fill d8 => exact congrArg Host.Outcome.next (syncView_beginHop_syncView s (.fill 0 d8))
  | fbWr8 off d => exact syncResult_execFbWr8 s off d
  | fbWr32 off d => exact syncResult_execFbWr32 s off d
  | getprop line => exact syncResult_of_read s fun u => (execGetprop_effect line u).imp fun _ => .inl
  | getpix => exact syncResult_of_read s fun u => (execGetpix_effect u).imp fun _ => .inl
  | getpix8 => exact syncResult_of_read s fun u => (execGetpix8_effect u).imp fun _ => .inl
  | getpix32 => exact syncResult_of_read s fun u => (execGetpix32_effect u).imp fun _ => .inl
  | fbRd8 | fbRd32 | rdCmd | rdXy | rdData | rdResult | rdStatus =>
    exact syncResult_of_read s fun u => ⟨_, .inr rfl⟩
  | regByte we off | regOther32 we off => exact syncResult_noRegister s we
  | wrCmd w => exact absurd rfl (hi w)

/-- R100, R128, R153: the same of every instruction, a WR_CMD by the command it carries. -/
theorem syncResult_exec_syncView (i : Instr) : syncResult (exec i (syncView s)) = syncResult (exec i s) := by
  rw [← exec_commandOf, ← exec_commandOf i s]
  exact syncResult_exec_of_ne_wrCmd s (commandOf_ne_wrCmd i)

/-- R51 item 2: between ticks HOST goes on with the operation in flight. -/
theorem hostMove_hop {s : State} (hphase : s.phase = .idle) (hhop : s.hop ≠ .none) :
    hostMove s = .next (hopStep s) := by
  simp [hostMove, hphase, (hop_pending_iff s.hop).2 hhop]

/-- R50, R51: HOST's move. -/
theorem syncResult_hostMove : syncResult (hostMove (syncView s)) = syncResult (hostMove s) := by
  cases hphase : s.phase with
  | waitSer =>
    rw [hostMove_waitSer hphase, hostMove_waitSer (s := syncView s) hphase]
    exact syncResult_hold s
  | idle =>
    by_cases hhop : s.hop = .none
    · cases hbus : s.bus with
      | nil =>
        rw [hostMove_nil hphase hhop hbus, hostMove_nil (s := syncView s) hphase hhop hbus]
        exact syncResult_hold s
      | cons b rest =>
        rw [hostMove_issue hphase hhop hbus, hostMove_issue (s := syncView s) hphase hhop hbus]
        exact syncResult_exec_syncView { s with bus := rest } (decodeBus b)
    · rw [hostMove_hop hphase hhop, hostMove_hop (s := syncView s) hphase hhop]
      exact congrArg Host.Outcome.next (syncView_hopStep_syncView s)

/-- Two outcomes chosen by one condition look alike when their branches do. -/
theorem syncResult_ite_congr {c d : Prop} [Decidable c] [Decidable d] {a b a' b' : Result} (h : c ↔ d)
    (ht : syncResult a = syncResult a') (hf : syncResult b = syncResult b') :
    syncResult (if c then a else b) = syncResult (if d then a' else b') := by
  rw [apply_ite syncResult, apply_ite syncResult]
  exact if_congr h ht hf

/-- R83, R86: SEQ's move, its fault included: neither phase looks at a pixel to decide what to do. -/
theorem syncResult_seqMove : syncResult (seqMove (syncView s)) = syncResult (seqMove s) := by
  have hphase : (syncView s).phase = s.phase := rfl
  rw [seqMove, seqMove, hphase]
  cases s.phase with
  | idle => exact syncResult_ite_congr Iff.rfl (congrArg Host.Outcome.next (syncView_phase1_syncView s)) (syncResult_hold s)
  | waitSer =>
    exact syncResult_ite_congr Iff.rfl (syncResult_hold s)
      (syncResult_ite_congr Iff.rfl rfl (congrArg Host.Outcome.next (syncView_phase2_syncView s)))

theorem syncResult_agentMove (a : Agent) : syncResult (agentMove a (syncView s)) = syncResult (agentMove a s) := by
  cases a with
  | host => exact syncResult_hostMove s
  | seq => exact syncResult_seqMove s
  | tmr => simp [agentMove, syncView_tmrMove]
  | ser => simp [agentMove, syncView_serMove]
  | rst => exact congrArg Host.Outcome.next (syncView_resetMachine_syncView s)

/-- R12, R153: whose turn it is is in the view. -/
theorem syncResult_step_syncView : syncResult (step (syncView s)) = syncResult (step s) := by
  have hturn : step (syncView s) = agentMove (nextAgent s) (syncView (takeTurn s)) := by
    rw [syncView_takeTurn]
    rfl
  rw [hturn]
  exact syncResult_agentMove _ _

end

/-- Settles O55: both states step as the view that they share does. -/
theorem syncIsIndependentOfTheFramebuffer : Obligations.SyncIsIndependentOfTheFramebuffer := by
  intro s s' t hview h
  have hstep : syncResult (step s') = .next (syncView t) := by
    rw [← syncResult_step_syncView s', ← hview, syncResult_step_syncView, h, syncResult_next]
  exact exists_next_of_syncResult hstep

/-! ## A serializer that never completes -/

section
variable {s : State}

/-- R86: SEQ waits for the serializer; nothing is asked of the transfer in flight. -/
theorem seqMove_hold (hphase : s.phase = .waitSer) (hrunning : s.running = true) (hbusy : s.serBusy = true) :
    seqMove s = .next s := by
  simp [seqMove, hphase, hrunning, hbusy]

/-- R156: one turn of HOST, SEQ or TMR while a tick waits for the serializer. -/
theorem exists_step_of_hang {a : Agent} {agents : List Agent} (ha : a = .host ∨ a = .seq ∨ a = .tmr)
    (hsched : s.sched = a :: agents) (hphase : s.phase = .waitSer) (hrunning : s.running = true)
    (hbusy : s.serBusy = true) : ∃ pending, step s = .next { s with sched := agents, tickPending := pending } := by
  rcases ha with rfl | rfl | rfl
  · exact ⟨s.tickPending, hostHoldsWhileATickIsInProgress s agents hsched hphase⟩
  · exact ⟨s.tickPending, (step_of_sched hsched).trans
      (seqMove_hold (s := { s with sched := agents }) hphase hrunning hbusy)⟩
  · exact ⟨s.enabled || s.tickPending, timerRequestsOneTick s agents hsched⟩

/-- R156: any number of them. -/
theorem exists_run_of_hang {turns rest : List Agent} (hturns : ∀ a ∈ turns, a = .host ∨ a = .seq ∨ a = .tmr)
    (hsched : s.sched = turns ++ rest) (hphase : s.phase = .waitSer) (hrunning : s.running = true)
    (hbusy : s.serBusy = true) : ∃ pending, Host.Core.run Sys2Proof.core turns.length s =
      .next { s with sched := rest, tickPending := pending } := by
  induction turns generalizing s with
  | nil =>
    obtain rfl : s.sched = rest := hsched
    exact ⟨s.tickPending, rfl⟩
  | cons a turns ih =>
    obtain ⟨pending, hstep⟩ := exists_step_of_hang (hturns a List.mem_cons_self) hsched hphase hrunning hbusy
    obtain ⟨last, hrun⟩ := ih (s := { s with sched := turns ++ rest, tickPending := pending })
      (fun b hb => hturns b (List.mem_cons_of_mem a hb)) rfl hphase hrunning hbusy
    exact ⟨last, (run_of_step turns.length hstep).trans hrun⟩

end

/-- Settles O45, by induction on the turns: each leaves the hang as it was. -/
theorem serializerThatNeverCompletesHangsTheEngine : Obligations.SerializerThatNeverCompletesHangsTheEngine := by
  intro turns rest s hphase hrunning hbusy hsched hturns
  obtain ⟨pending, hrun⟩ := exists_run_of_hang hturns hsched hphase hrunning hbusy
  exact ⟨_, hrun, rfl, rfl⟩

/-! ## A paused engine -/

/-- R104, R105: only RESUME resumes a paused engine. -/
theorem EffectOf.running_eq_false {s t : State} {i : Instr} (h : EffectOf s i t) (hi : i ≠ .resume)
    (hpaused : s.running = false) : t.running = false := by
  cases h with
  | resume => exact absurd rfl hi
  | pause => rfl
  | putpix32 | fbWr32 | fill | setprops => exact (beginHop_registersKept _ s).running.trans hpaused
  | _ => exact hpaused

/-- R158: a step that is no reset and issues no RESUME leaves a paused engine paused. -/
theorem running_eq_false_of_step {s t : State} (hpaused : s.running = false) (h : step s = .next t)
    (hr : nextAgent s ≠ .rst) (hresume : issued s ≠ some .resume) : t.running = false := by
  cases hostView_of_step h hr with
  | kept hk => exact hk.running.trans hpaused
  | hop ha hp hh hx => exact hx.running.trans hpaused
  | issue sched turn bus i ha hp hi he =>
    exact he.running_eq_false (fun hres => hresume (hres ▸ hi)) hpaused

/-- R158: of what a step appends to the trace a PREP comes from a running engine alone. -/
theorem preps_trace_of_step {s t : State} (hpaused : s.running = false) (h : step s = .next t) :
    preps t.trace = preps s.trace := by
  obtain ⟨new, htrace, ⟨hnew, -⟩ | ⟨-, -, -, -, hrunning, -⟩⟩ := prepIsIssuedOnlyToAFreeSerializer s t h
  · rw [htrace, preps, List.filter_append]
    exact (congrArg (preps s.trace ++ ·) hnew).trans (List.append_nil _)
  · exact absurd (hpaused.symm.trans hrunning) Bool.false_ne_true

/-- Settles O54: a PREP needs RUNNING, which nothing sets but RESUME and reset. -/
theorem pausedEngineSendsNoLine : Obligations.PausedEngineSendsNoLine :=
  fun _ _ hpaused h => ⟨preps_trace_of_step hpaused h, running_eq_false_of_step hpaused h⟩

/-! ## A transfer into a serializer that is still shifting -/

/-- 93 U1, log 10: SEQ's move with a line due for a serializer that dropped SER_BUSY early. -/
theorem seqMove_liveTransfer {s : State} (hphase : s.phase = .waitSer) (hrunning : s.running = true)
    (hbusy : s.serBusy = false) (hlive : s.serLive = true) : seqMove s = .fault .prepIntoLiveTransfer := by
  simp [seqMove, hphase, hrunning, hbusy, hlive]

/-- Settles O46: a scheduled turn is the agent's move, and SEQ's move faults. -/
theorem prepIntoALiveTransferFaults : Obligations.PrepIntoALiveTransferFaults :=
  fun s agents hsched hphase hrunning hbusy hlive => (step_of_sched hsched).trans
    (seqMove_liveTransfer (s := { s with sched := agents }) hphase hrunning hbusy hlive)

/-! ## Reset -/

/-- R42, R150: STATUS after a reset: LINE, COLOR, SER_BUSY and ENABLED are 0, both sync levels and RUNNING are 1. -/
theorem status_resetMachine (s : State) : status (resetMachine s) = if s.lpe then 0x00000072 else 0x00000062 := by
  cases hlpe : s.lpe <;> simp [status, resetMachine, State.reset, VTarget.bit, hlpe]

/-- Settles O58: RST's turn answers `resetMachine`, whose two tables are empty: every entry reads 0, every byte its draw. -/
theorem resetPutsEveryStateAtItsValue : Obligations.ResetPutsEveryStateAtItsValue := by
  intro s agents hsched
  exact ⟨resetMachine { s with sched := agents }, step_of_sched hsched, rfl, rfl, rfl, rfl, rfl, rfl, rfl, rfl, rfl, rfl,
    rfl, fun _ => rfl, fun _ => rfl, rfl, rfl, rfl, status_resetMachine _, rfl, rfl⟩

/-- Settles O59: the conditions do not see the number of resets, in which alone a reset of `State.reset` differs from it. -/
theorem resetStateIsLegal : Obligations.ResetStateIsLegal := legal_resetMachine State.reset

end Sys2Proof.Machine

/-! PROOFS. The statement of 93_implementation_defined.md section 2: what the inputs S1 to S6 do. -/

namespace Sys2Proof.Machine

open Sys2Proof.Safety

/-! ## S1, S2: commands -/

section
variable {mode : Mode} {s : State} (hmode : (mode != .reserved) = false)
include hmode

/-- R76: PUTPIX in MODE 0b11. -/
theorem exec_putpix_of_reserved (v : BitVec 1) : exec (.putpix mode v) s = .next s :=
  exec_putpix_of_none v fun hm => absurd (bne_eq_false_iff_eq.1 hmode) hm

/-- R76: PUTPIX8 in MODE 0b11. -/
theorem exec_putpix8_of_reserved (d8 : Byte) : exec (.putpix8 mode d8) s = .next s :=
  exec_putpix8_of_none d8 fun hm => absurd (bne_eq_false_iff_eq.1 hmode) hm

/-- R76: PUTPIX32 in MODE 0b11. -/
theorem exec_putpix32_of_reserved : exec (.putpix32 mode) s = .next s :=
  exec_putpix32_of_none fun hm => absurd (bne_eq_false_iff_eq.1 hmode) hm

end

/-- Of the defined commands the three PUT commands alone can be outside the contract. -/
theorem exec_opcode_of_outOfContract (o : Opcode) (w : Word) (s : State) (h : inContract (o.instr w) = false) :
    exec (o.instr w) s = .next s := by
  cases o with
  | putpix => exact exec_putpix_of_reserved h _
  | putpix8 => exact exec_putpix8_of_reserved h _
  | putpix32 => exact exec_putpix32_of_reserved h
  | _ => exact absurd h Bool.true_eq_false.mp

/-- R100: a command stands for itself. -/
theorem commandOf_decodeCommand (w : Word) : commandOf (decodeCommand w) = decodeCommand w := by
  cases h : decodeCommand w with
  | wrCmd v => exact absurd h (decodeCommand_ne_wrCmd w v)
  | _ => rfl

/-- R100, R128: the contract of a WR_CMD is that of the command it carries. -/
theorem inContract_wrCmd (w : Word) : inContract (.wrCmd w) = inContract (decodeCommand w) := by
  rw [inContract, inContract, commandOf_decodeCommand, commandOf]

/-- R100, R128: a WR_CMD outside the contract carries a reserved opcode (R74) or a PUT command in MODE 0b11. -/
theorem exec_wrCmd_of_outOfContract (w : Word) (s : State) (h : inContract (.wrCmd w) = false) :
    exec (.wrCmd w) s = .next s := by
  rw [inContract_wrCmd] at h
  rw [exec_wrCmd]
  cases hopc : opcodeOf (cmdOpc w) with
  | none => rw [decodeCommand_of_reserved hopc, exec, execReservedOpc]
  | some o =>
    rw [decodeCommand_of_opcodeOf hopc] at h ⊢
    exact exec_opcode_of_outOfContract o w s h

/-! ## S3, S5: raw accesses that are misaligned or outside the framebuffer -/

section
variable {off : BitVec 15} (s : State)

/-- R49, R124: FB_RD8 of the aperture tail. -/
theorem exec_fbRd8_of_tail (h : ¬off.toNat < Config.fbBytes) : exec (.fbRd8 off) s = .next (respond 0x00000000#32 s) := by
  simp only [exec, execFbRd8, if_neg h]

/-- R49, R125: FB_WR8 of the aperture tail. -/
theorem exec_fbWr8_of_tail (d : Byte) (h : ¬off.toNat < Config.fbBytes) : exec (.fbWr8 off d) s = .next s := if_neg h

/-- R126: FB_RD32 of a misaligned or unbacked word. -/
theorem exec_fbRd32_of_unbacked (h : rawWordOk off = false) :
    exec (.fbRd32 off) s = .next (respond 0x00000000#32 s) := by
  simp only [exec, execFbRd32, h, Bool.false_eq_true, if_false]

end

/-! ## The whole contract -/

/-- Settles O34, row by row of the contract; a command carried by WR_CMD is none of the reads. -/
theorem outOfContractHasNoEffect : Obligations.OutOfContractHasNoEffect := by
  intro i s h
  cases i with
  | reservedOpc => rfl
  | putpix _ v => exact exec_putpix_of_reserved h v
  | putpix8 _ d8 => exact exec_putpix8_of_reserved h d8
  | putpix32 => exact exec_putpix32_of_reserved h
  | wrCmd w => exact exec_wrCmd_of_outOfContract w s h
  | fbRd8 => exact exec_fbRd8_of_tail s (of_decide_eq_false h)
  | fbWr8 _ d => exact exec_fbWr8_of_tail s d (of_decide_eq_false h)
  | fbRd32 => exact exec_fbRd32_of_unbacked s h
  | fbWr32 off d => exact exec_fbWr32_of_unbacked d s (mt (rawWordOk_iff off).2 (Bool.eq_false_iff.1 h))
  | regByte we | regOther32 we => cases we <;> rfl
  | nop | start | stop | pause | resume | setprop | setprops | getprop | getpix | getpix8 | getpix32 | fill | wrXy
  | wrData | rdCmd | rdXy | rdData | rdResult | rdStatus => exact absurd h Bool.true_eq_false.mp

end Sys2Proof.Machine
